-- ==== Sys2Proof/Word.lean ====
section
/-! DEFINITION. The word types of the block (00_scope.md R7): every quantity is an unsigned bit vector, and a
byte string is a list of bytes with position 0 first. -/

namespace Sys2Proof

/-- An 8-bit byte (R7). -/
abbrev Byte := BitVec 8

/-- A 16-bit word: the checksum register, a table entry, a payload position. -/
abbrev Word16 := BitVec 16

/-- A 32-bit word: the timer, its compare value, the response datum. -/
abbrev Word32 := BitVec 32

end Sys2Proof
end

