-- ==== Sys2Proof/Config.lean ====
section
/-! DEFINITION. The implementation parameters of 00_scope.md R5. The fixed ones are constants; the ones the spec
leaves open or only defaults are the fields of `Config`, which `State` carries and no step changes, so that every
statement over all states is a statement over all parameter sets (assumption log 1). -/

namespace Sys2Proof

/-- R5, R100, R101: whether the stale test comes before or after the slice is recorded. -/
inductive StaleOrder where
  | checkThenRecord
  | recordThenCheck
  deriving DecidableEq, Repr

/-- R5: the parameters that are not fixed by the document. None is run-time writable. -/
structure Config where
  /-- `MARKER`, open; `MARKER_LEN` is its length. -/
  marker : List Byte
  /-- `MAX_FRAME`, default 32. -/
  maxFrame : Nat
  /-- `IDLE_TIMEOUT_EN`, default 0. -/
  idleTimeoutEn : Bool
  /-- `STALE_ORDER`, default `check_then_record`. -/
  staleOrder : StaleOrder
  /-- `HEX_UPPER`, open; only the reference packer and the encoder of frames read it (D5). -/
  hexUpper : Bool
  /-- `TICK_PERIOD`, open, a duration the platform fixes; it enters no rule (U16), so nothing reads it. Taking a number
  for a duration is the model's choice (assumption log 14). -/
  tickPeriod : Nat
  deriving DecidableEq, Repr

/-- R5: `MARKER_LEN = len(MARKER)`. -/
def Config.markerLen (cfg : Config) : Nat := cfg.marker.length

/-- R5: `POLY`, fixed. -/
def Config.poly : Word16 := 0x1021#16

/-- R5: `CRC_INIT`, fixed. -/
def Config.crcInit : Word16 := 0x1D0F#16

/-- R5: `TAB_SIZE`, fixed. -/
def Config.tabSize : Nat := 256

/-- R5: `NSLOTS`, fixed. -/
def Config.nSlots : Nat := 256

/-- The parameter set of `State.reset`: R5's defaults, and a value of the model's for each of the three parameters to
which no source gives one. DESIGN CHOICE, unsafe (assumption log 1): the marker `<MARK>` and `HEX_UPPER = 1`, the values
95_test_vectors.md uses, and `TICK_PERIOD = 1`, a number the model made up and nothing reads (assumption log 14). -/
def Config.standard : Config where
  marker := [0x3C#8, 0x4D#8, 0x41#8, 0x52#8, 0x4B#8, 0x3E#8]
  maxFrame := 32
  idleTimeoutEn := false
  staleOrder := .checkThenRecord
  hexUpper := true
  tickPeriod := 1

end Sys2Proof
end

