-- ==== Sys2Proof/Machine/Hex.lean ====
section
/-! DEFINITION. The hexadecimal codec of the wire formats (30_encoding.md R55 to R58). It stands under Machine so
that a repair can mend it; it reads no state. -/

namespace Sys2Proof

/-- R55: the value of one hexadecimal digit character; both letter cases are accepted, nothing else is. -/
def hexVal (c : Byte) : Option Nat :=
  if 0x30 ≤ c.toNat ∧ c.toNat ≤ 0x39 then some (c.toNat - 0x30)
  else if 0x41 ≤ c.toNat ∧ c.toNat ≤ 0x46 then some (c.toNat - 0x41 + 10)
  else if 0x61 ≤ c.toNat ∧ c.toNat ≤ 0x66 then some (c.toNat - 0x61 + 10)
  else none

/-- R56: the value of a 2-character field, most significant digit first. -/
def hexByte (c1 c0 : Byte) : Option Byte :=
  match hexVal c1, hexVal c0 with
  | some a, some b => some (BitVec.ofNat 8 (16 * a + b))
  | _, _ => none

/-- R57: the value of a 4-character field, most significant digit first; a string of another length has none. -/
def hex4 (f : List Byte) : Option Word16 :=
  match f with
  | [c3, c2, c1, c0] =>
    match hexVal c3, hexVal c2, hexVal c1, hexVal c0 with
    | some d0, some d1, some d2, some d3 => some (BitVec.ofNat 16 (4096 * d0 + 256 * d1 + 16 * d2 + d3))
    | _, _, _, _ => none
  | _ => none

/-- R58: `D(d)`, the character of one digit, in upper case when `HEX_UPPER = 1` and in lower case when it is 0. -/
def hexDigit (upper : Bool) (d : BitVec 4) : Byte :=
  if d.toNat ≤ 9 then BitVec.ofNat 8 (0x30 + d.toNat)
  else if upper then BitVec.ofNat 8 (0x41 + d.toNat - 10)
  else BitVec.ofNat 8 (0x61 + d.toNat - 10)

/-- R58: `ToHex2`, the 2-character field of an 8-bit value. -/
def toHex2 (upper : Bool) (v : Byte) : List Byte :=
  [hexDigit upper (v.extractLsb 7 4), hexDigit upper (v.extractLsb 3 0)]

/-- R58: `ToHex4`, the 4-character field of a 16-bit value. -/
def toHex4 (upper : Bool) (v : Word16) : List Byte :=
  [hexDigit upper (v.extractLsb 15 12), hexDigit upper (v.extractLsb 11 8),
   hexDigit upper (v.extractLsb 7 4), hexDigit upper (v.extractLsb 3 0)]

end Sys2Proof
end

