-- ==== Sys2Proof/Syntax.lean ====
section
/-! DEFINITION. The instructions: one constructor per row of spec/opcode_table.json. Nine are host commands
(30_encoding.md R47); the last two rows are the two wire formats the Frame Parser decodes (R53, R54). -/

namespace Sys2Proof

/-- R46: the five command formats. -/
inductive Format where
  /-- opcode only -/
  | z
  /-- opcode and one byte -/
  | b
  /-- opcode and a 16-bit operand -/
  | h
  /-- opcode and a 32-bit operand -/
  | w
  /-- opcode, a length byte `n`, and `n` bytes -/
  | l
  deriving DecidableEq, Repr

/-- R47 (commands) and R53, R54 (wire formats): the rows of the opcode table. -/
inductive Instr where
  /-- CRC.INIT, R75 -/
  | crcInit
  /-- CRC.BYTE b, R76 -/
  | crcByte (b : Byte)
  /-- FP.PARSE raw, R86 -/
  | fpParse (raw : List Byte)
  /-- RX.START T, R96 -/
  | rxStart (t : Word32)
  /-- RX.FRAME raw, R98 -/
  | rxFrame (raw : List Byte)
  /-- RX.TICK, R107 -/
  | rxTick
  /-- RX.ABORT, R97 -/
  | rxAbort
  /-- RX.BYTE i, R121 -/
  | rxByte (i : Word16)
  /-- RD r, R120 -/
  | rd (r : Byte)
  /-- The marker-bearing wire format F0, R53: a raw frame inside FP.PARSE or RX.FRAME. -/
  | frameF0 (count index : Byte) (slice : List Byte)
  /-- The plain wire format FN, R54: a raw frame inside FP.PARSE or RX.FRAME. -/
  | frameFN (index : Byte) (slice : List Byte)
  deriving DecidableEq, Repr

/-- R85: what `ParseFrame` returns for a frame that is not malformed. The document's optional frame-count is an
optional here (U8), so `has_count` is `count.isSome` and there is no filler. -/
structure ParsedFrame where
  count : Option Byte
  index : Byte
  /-- the byte position at which the payload slice starts -/
  off : Nat
  deriving DecidableEq, Repr

/-- R51: why a command is refused before it executes. -/
inductive CommandError where
  /-- the empty transaction: ERR_FORMAT -/
  | emptyCommand
  /-- `cmd[0]` is none of the nine opcodes: ERR_OP -/
  | illegalOpcode (op : Byte)
  /-- `len(cmd)` does not fit the opcode's format: ERR_FORMAT -/
  | badLength (op : Byte)
  /-- format L with `n > MAX_FRAME`: ERR_LEN -/
  | frameTooLong (n : Byte)
  deriving DecidableEq, Repr

end Sys2Proof
end

