-- ==== Sys2Proof/WellFormed.lean ====
section
/-! DEFINITION. Which parameter sets the rules are stated for (00_scope.md R6) and which instructions an encoding
exists for under a parameter set. -/

namespace Sys2Proof

/-- R6, third condition: the first two bytes of the marker are not both hexadecimal characters; a marker of one
byte is not a hexadecimal character. -/
def Config.markerHeadOk (cfg : Config) : Bool :=
  match cfg.marker with
  | [] => false
  | [a] => (hexVal a).isNone
  | a :: b :: _ => !((hexVal a).isSome && (hexVal b).isSome)

/-- R6: the parameter set is well formed. -/
def Config.wf (cfg : Config) : Bool :=
  decide (1 ≤ cfg.markerLen) && decide (cfg.markerLen + 4 ≤ cfg.maxFrame) && decide (cfg.maxFrame ≤ 255)
    && cfg.markerHeadOk

/-- R65, R53, R54: an instruction that carries or is a raw frame fits `MAX_FRAME`; every other operand is legal at
every value of its width (R47). -/
def Instr.wf (cfg : Config) : Instr → Bool
  | .crcInit => true
  | .crcByte _ => true
  | .fpParse raw => decide (raw.length ≤ cfg.maxFrame)
  | .rxStart _ => true
  | .rxFrame raw => decide (raw.length ≤ cfg.maxFrame)
  | .rxTick => true
  | .rxAbort => true
  | .rxByte _ => true
  | .rd _ => true
  | .frameF0 _ _ slice => decide (cfg.markerLen + 4 + slice.length ≤ cfg.maxFrame)
  | .frameFN _ slice => decide (2 + slice.length ≤ cfg.maxFrame)

/-- The instruction is a host command (R47), not a wire format (R53, R54). -/
def Instr.isCommand : Instr → Bool
  | .crcInit => true
  | .crcByte _ => true
  | .fpParse _ => true
  | .rxStart _ => true
  | .rxFrame _ => true
  | .rxTick => true
  | .rxAbort => true
  | .rxByte _ => true
  | .rd _ => true
  | .frameF0 _ _ _ => false
  | .frameFN _ _ => false

end Sys2Proof
end

