-- ==== Sys2Proof/Decode.lean ====
section
/-! DEFINITION. The two decoders of the block: host commands (30_encoding.md part A) and raw frames (part B, the
Frame Parser's `ParseFrame`, 41_parser.md R85), then the encoder of both. Every decoder is total. -/

namespace Sys2Proof

/-! ### Host commands: R46 to R52 -/

/-- R47: the format of an opcode; `none` for the 247 illegal opcode bytes (R50). -/
def formatOf (op : Byte) : Option Format :=
  if op = 0x10#8 then some .z
  else if op = 0x11#8 then some .b
  else if op = 0x20#8 then some .l
  else if op = 0x30#8 then some .w
  else if op = 0x31#8 then some .l
  else if op = 0x32#8 then some .z
  else if op = 0x33#8 then some .z
  else if op = 0x34#8 then some .h
  else if op = 0x40#8 then some .b
  else none

/-- R48: the 16-bit operand `{h1, h0}`, first byte most significant (R36). -/
def half (h1 h0 : Byte) : Word16 := h1 ++ h0

/-- R48: the 32-bit operand `{w3, w2, w1, w0}`, first byte most significant (R36). -/
def word (w3 w2 w1 w0 : Byte) : Word32 := w3 ++ w2 ++ w1 ++ w0

/-- R51, format Z: nothing may follow the opcode. -/
def formZ (op : Byte) (args : List Byte) (i : Instr) : Except CommandError Instr :=
  match args with
  | [] => .ok i
  | _ => .error (.badLength op)

/-- R51, format B: exactly one byte follows. -/
def formB (op : Byte) (args : List Byte) (mk : Byte → Instr) : Except CommandError Instr :=
  match args with
  | [b] => .ok (mk b)
  | _ => .error (.badLength op)

/-- R51, format H: exactly two bytes follow. -/
def formH (op : Byte) (args : List Byte) (mk : Word16 → Instr) : Except CommandError Instr :=
  match args with
  | [h1, h0] => .ok (mk (half h1 h0))
  | _ => .error (.badLength op)

/-- R51, format W: exactly four bytes follow. -/
def formW (op : Byte) (args : List Byte) (mk : Word32 → Instr) : Except CommandError Instr :=
  match args with
  | [w3, w2, w1, w0] => .ok (mk (word w3 w2 w1 w0))
  | _ => .error (.badLength op)

/-- R51, format L: a length byte and exactly that many bytes, at most `MAX_FRAME` (R65); the length is tested
before the bound. -/
def formL (cfg : Config) (op : Byte) (args : List Byte) (mk : List Byte → Instr) : Except CommandError Instr :=
  match args with
  | [] => .error (.badLength op)
  | n :: raw =>
    if raw.length ≠ n.toNat then .error (.badLength op)
    else if n.toNat > cfg.maxFrame then .error (.frameTooLong n)
    else .ok (mk raw)

/-- R51: decoding one command, in the rule's order: empty, opcode, length, `n > MAX_FRAME`. -/
def decode (cfg : Config) (cmd : List Byte) : Except CommandError Instr :=
  match cmd with
  | [] => .error .emptyCommand
  | op :: args =>
    if op = 0x10#8 then formZ op args .crcInit
    else if op = 0x11#8 then formB op args .crcByte
    else if op = 0x20#8 then formL cfg op args .fpParse
    else if op = 0x30#8 then formW op args .rxStart
    else if op = 0x31#8 then formL cfg op args .rxFrame
    else if op = 0x32#8 then formZ op args .rxTick
    else if op = 0x33#8 then formZ op args .rxAbort
    else if op = 0x34#8 then formH op args .rxByte
    else if op = 0x40#8 then formB op args .rd
    else .error (.illegalOpcode op)

/-- R52: the length of a command, a function of its first byte and, for format L, of its second byte (0 where the
second byte is missing). -/
def commandLength (cmd : List Byte) : Option Nat :=
  match cmd with
  | [] => none
  | op :: args =>
    match formatOf op with
    | some .z => some 1
    | some .b => some 2
    | some .h => some 3
    | some .w => some 5
    | some .l => some (2 + (args.headD 0#8).toNat)
    | none => none

/-! ### Raw frames: R53, R54, R59, R60, R85 -/

/-- R85: `ParseFrame`; `none` is the malformed verdict, given in exactly the four cases of R60. -/
def parseFrame (cfg : Config) (raw : List Byte) : Option ParsedFrame :=
  if raw.take cfg.markerLen = cfg.marker then
    match raw.drop cfg.markerLen with
    | c1 :: c0 :: i1 :: i0 :: _ =>
      match hexByte c1 c0, hexByte i1 i0 with
      | some c, some i => some { count := some c, index := i, off := cfg.markerLen + 4 }
      | _, _ => none
    | _ => none
  else
    match raw with
    | i1 :: i0 :: _ =>
      match hexByte i1 i0 with
      | some i => some { count := none, index := i, off := 2 }
      | none => none
    | _ => none

/-- R53, R54: the wire-format row a raw frame is decoded as, with its fields and its payload slice. -/
def decodeFrame (cfg : Config) (raw : List Byte) : Option Instr :=
  match parseFrame cfg raw with
  | none => none
  | some p =>
    match p.count with
    | some c => some (.frameF0 c p.index (raw.drop p.off))
    | none => some (.frameFN p.index (raw.drop p.off))

/-! ### The encoder: R46, R47 for commands, R53, R54, R58 for frames -/

/-- The command byte string of a command (R47), or the raw frame of a wire format (R53, R54). -/
def encode (cfg : Config) : Instr → List Byte
  | .crcInit => [0x10#8]
  | .crcByte b => [0x11#8, b]
  | .fpParse raw => 0x20#8 :: BitVec.ofNat 8 raw.length :: raw
  | .rxStart t => [0x30#8, t.extractLsb 31 24, t.extractLsb 23 16, t.extractLsb 15 8, t.extractLsb 7 0]
  | .rxFrame raw => 0x31#8 :: BitVec.ofNat 8 raw.length :: raw
  | .rxTick => [0x32#8]
  | .rxAbort => [0x33#8]
  | .rxByte i => [0x34#8, i.extractLsb 15 8, i.extractLsb 7 0]
  | .rd r => [0x40#8, r]
  | .frameF0 c i slice => cfg.marker ++ toHex2 cfg.hexUpper c ++ toHex2 cfg.hexUpper i ++ slice
  | .frameFN i slice => toHex2 cfg.hexUpper i ++ slice

/-! ### Words of the opcode table -/

/-- The first `n` bytes of `w`, numbered as spec/opcode_table.json numbers bits: byte `k` is bits `8k+7 .. 8k`. -/
def tableBytes (n w : Nat) : List Byte := (List.range n).map (fun k => BitVec.ofNat 8 (w >>> (8 * k)))

/-- The command an `nbits`-bit table word stands for: its bytes, then zero bytes up to the length R52 gives. -/
def tableCommand (nbits w : Nat) : List Byte :=
  let bytes := tableBytes ((nbits + 7) / 8) w
  match commandLength bytes with
  | none => bytes
  | some len => bytes ++ List.replicate (len - bytes.length) 0#8

/-- The instruction the command decoder reads from a table word, under the parameter set of `State.reset`
(assumption log 9). -/
def decodeTableWord (nbits w : Nat) : Option Instr :=
  match decode Config.standard (tableCommand nbits w) with
  | .ok i => some i
  | .error _ => none

end Sys2Proof
end

