-- ==== Sys2Proof/Machine/State.lean ====
section
/-! DEFINITION. The architectural state of 10_state.md R10 as plain data, the command port around it, and reset. -/

namespace Sys2Proof.Machine

/-- R14: the control state of the Reassembly Engine; codes 5 to 7 are never held (U14). -/
inductive RxState where
  | off
  | idle
  | collecting
  | complete
  | timedOut
  deriving DecidableEq, Repr

/-- R15: the discriminated result of the most recent cycle. -/
inductive CycleOutcome where
  | none
  | success
  | checksumMismatch
  | timeout
  deriving DecidableEq, Repr

/-- R49: the response codes; no other value is ever produced. -/
inductive ResponseCode where
  | ok
  | discarded
  | ignored
  | errOp
  | errFormat
  | errLen
  | errState
  | errRange
  deriving DecidableEq, Repr

/-- R49: a response, a code and a 32-bit datum. -/
structure Response where
  code : ResponseCode
  data : Word32
  deriving DecidableEq, Repr

/-- What reaches the block from outside, one at a time: a command at the port (R45) or reset (R160). -/
inductive PortEvent where
  | command (bytes : List Byte)
  | reset
  deriving DecidableEq, Repr

/-- R17: the slot store as a finite map from 8-bit index to payload slice, in one canonical form: indices strictly
rising. A listed index is a valid slot; an unlisted one is not, and then it has no contents (U6, assumption log 3). -/
abbrev SlotMemory := List (Byte × List Byte)

/-- R10. `slot_valid`, `occ` (R18) and `out_len` (R22) are computed from `slots` and `out` (assumption log 3, 4). -/
structure State where
  /-- the parameter set, R5; never written (assumption log 1) -/
  cfg : Config
  /-- R11: the Checksum Engine's register -/
  crc : Word16
  /-- R14 -/
  st : RxState
  /-- R15 -/
  outcome : CycleOutcome
  /-- R16 -/
  expValid : Bool
  /-- R16 -/
  expTotal : Byte
  /-- R17: `slot` and `slot_valid` -/
  slots : SlotMemory
  /-- R19 -/
  timer : Word32
  /-- R20 -/
  tmo : Word32
  /-- R21 -/
  malf : Bool
  /-- R21 -/
  stale : Bool
  /-- R22: the recovered Logical Payload -/
  out : List Byte
  /-- the events the host has presented and the block has not yet executed, oldest first (R41, R45; log 2) -/
  port : List PortEvent
  /-- the response to the most recent command, R45; `none` when there is none since reset (log 2) -/
  response : Option Response
  deriving DecidableEq, Repr

/-- No step ever stops with a fault: the block has no trap mechanism (R140) and every command is total (R164), so
this type has no constructor and nobody can raise one. -/
inductive Fault where
  deriving DecidableEq, Repr

/-- Why the model gives no meaning. -/
inductive Refusal where
  /-- Raised by an arm of `exec` whose instruction has no meaning yet; safe. No arm raises it. -/
  | notModelled (mnemonic : String)
  /-- Raised by `step` when the parameter set is not well formed: the spec states its rules for well-formed sets
  only (R6, U10: `refuse`). Safe. -/
  | illFormedParameters
  deriving DecidableEq, Repr

/-- R28: the state after reset of a block built with the parameter set `cfg`. -/
def State.resetOf (cfg : Config) : State where
  cfg := cfg
  crc := Config.crcInit
  st := .off
  outcome := .none
  expValid := false
  expTotal := 0#8
  slots := []
  timer := 0#32
  tmo := 0#32
  malf := false
  stale := false
  out := []
  port := []
  response := none

/-- R28, R160: the machine right after reset, with the parameter set of `Config.standard` (assumption log 1). -/
def State.reset : State := State.resetOf Config.standard

end Sys2Proof.Machine
end

