-- ==== Sys2Proof/Machine/Flags.lean ====
section
/-! DEFINITION. The conditions and flags the rules compute from the state: occupancy (R18), the STATUS word (R25),
the stale, completion and timeout tests (R104, R105, R108). -/

namespace Sys2Proof.Machine

/-- R14: the 3-bit code of the control state. -/
def RxState.code : RxState → BitVec 3
  | .off => 0#3
  | .idle => 1#3
  | .collecting => 2#3
  | .complete => 3#3
  | .timedOut => 4#3

/-- R15: the 2-bit code of the outcome. -/
def CycleOutcome.code : CycleOutcome → BitVec 2
  | .none => 0#2
  | .success => 1#2
  | .checksumMismatch => 2#2
  | .timeout => 3#2

/-- R49: the 8-bit code of a response. -/
def ResponseCode.byte : ResponseCode → Byte
  | .ok => 0x00#8
  | .discarded => 0x01#8
  | .ignored => 0x02#8
  | .errOp => 0x80#8
  | .errFormat => 0x81#8
  | .errLen => 0x82#8
  | .errState => 0x83#8
  | .errRange => 0x84#8

/-- R49: codes 0x80 to 0xFF report a refused command. -/
def ResponseCode.isError (c : ResponseCode) : Bool := c.byte.msb

/-- R18: `occ`, the number of valid slots, a natural number 0 to 256 (R113). -/
def State.occ (s : State) : Nat := s.slots.length

/-- R22: `out_len`, 16 bits. -/
def State.outLen (s : State) : Word16 := BitVec.ofNat 16 s.out.length

/-- R14: a cycle is active exactly when `st` is IDLE or COLLECTING. -/
def State.cycleActive (s : State) : Bool :=
  match s.st with
  | .idle => true
  | .collecting => true
  | .off => false
  | .complete => false
  | .timedOut => false

/-- R25: the STATUS word, bit 31 first. -/
def State.status (s : State) : Word32 :=
  0#24 ++ BitVec.ofBool s.stale ++ BitVec.ofBool s.malf ++ BitVec.ofBool s.expValid ++ s.outcome.code ++ s.st.code

/-- R104: a count is recorded, it differs from the new one, and the buffer holds more entries than that allows. -/
def State.staleConflict (s : State) (count : Byte) : Bool :=
  s.expValid && s.expTotal != count && decide (count.toNat < s.occ)

/-- R105: the completion test, on natural numbers. -/
def State.completionTest (s : State) : Bool := s.expValid && s.occ == s.expTotal.toNat

/-- R107: a tick is counted in COLLECTING, and in IDLE when `IDLE_TIMEOUT_EN = 1`. -/
def State.tickCounted (s : State) : Bool :=
  match s.st with
  | .collecting => true
  | .idle => s.cfg.idleTimeoutEn
  | .off => false
  | .complete => false
  | .timedOut => false

/-- R107, R113: the saturating increment `min(timer + 1, 0xFFFFFFFF)`. -/
def satIncr (t : Word32) : Word32 := BitVec.ofNat 32 (min (t.toNat + 1) 0xFFFFFFFF)

/-- R108: `timer > tmo`, an unsigned comparison (R113). -/
def State.timerExpired (s : State) : Bool := decide (s.tmo.toNat < s.timer.toNat)

end Sys2Proof.Machine
end

