-- ==== Sys2Proof/Machine/Operands.lean ====
section
/-! DEFINITION. What an operand names: a status register (R26), a position of the recovered payload (R121), the
payload slice of a raw frame (R85), and the data words built from them (R49, R86). -/

namespace Sys2Proof.Machine

/-- R26: the status register `r` as a 32-bit datum with its unused upper bits 0; `none` for 7 to 255 (U12). -/
def State.statusRegister (s : State) (r : Byte) : Option Word32 :=
  match r.toNat with
  | 0 => some s.status
  | 1 => some (s.expTotal.setWidth 32)
  | 2 => some (BitVec.ofNat 32 s.occ)
  | 3 => some s.timer
  | 4 => some s.tmo
  | 5 => some (s.outLen.setWidth 32)
  | 6 => some (s.crc.setWidth 32)
  | _ => none

/-- R33, R121: the byte of `out` at a 16-bit position; `none` at and beyond `out_len`. -/
def State.outByte (s : State) (i : Word16) : Option Byte := s.out[i.toNat]?

/-- R85: the payload slice `raw[off..n)`. -/
def parsedSlice (p : ParsedFrame) (raw : List Byte) : List Byte := raw.drop p.off

/-- R86: the datum of FP.PARSE, bit 31 first: six zeros, has_count, valid, count (0 when absent), index, off. -/
def parseDatum : Option ParsedFrame → Word32
  | none => 0#32
  | some p =>
    0#6 ++ BitVec.ofBool p.count.isSome ++ 1#1 ++ p.count.getD 0#8 ++ p.index ++ BitVec.ofNat 8 p.off

/-- R49: the 5 bytes of a response, the datum most significant byte first. -/
def Response.bytes (r : Response) : List Byte :=
  [r.code.byte, r.data.extractLsb 31 24, r.data.extractLsb 23 16, r.data.extractLsb 15 8, r.data.extractLsb 7 0]

/-- R51: the response code of a refused decoding. -/
def errorCode : CommandError → ResponseCode
  | .emptyCommand => .errFormat
  | .illegalOpcode _ => .errOp
  | .badLength _ => .errFormat
  | .frameTooLong _ => .errLen

end Sys2Proof.Machine
end

