-- ==== Sys2Proof/Machine/Ops.lean ====
section
/-! DEFINITION. The named operations every meaning is built from: the slot store (20_memory.md R32), responses and
command errors (R49, R147), the helper procedures of 42_reassembly.md R100 to R106, reset (R160) and taking the next
event from the port (R41, R45). -/

namespace Sys2Proof.Machine

/-- What one step answers. -/
abbrev StepResult := Host.Outcome State Fault Refusal

/-! ### The slot store -/

/-- The canonical form of the slot store: indices strictly rising, so no index twice. -/
abbrev SlotMemory.wf (m : SlotMemory) : Prop := m.Pairwise (fun a b => a.1.toNat < b.1.toNat)

/-- R17: the slice of slot `i`, `none` when `slot_valid[i] = 0`. -/
def SlotMemory.read (m : SlotMemory) (i : Byte) : Option (List Byte) :=
  match m with
  | [] => none
  | (j, t) :: rest => if i = j then some t else SlotMemory.read rest i

/-- R32: write one whole slot, replacing what it held (last write wins). -/
def SlotMemory.write (m : SlotMemory) (i : Byte) (slice : List Byte) : SlotMemory :=
  match m with
  | [] => [(i, slice)]
  | (j, t) :: rest =>
    if i.toNat < j.toNat then (i, slice) :: (j, t) :: rest
    else if i = j then (i, slice) :: rest
    else (j, t) :: SlotMemory.write rest i slice

/-- R106: the valid slices in ascending index order, concatenated. -/
def SlotMemory.concat (m : SlotMemory) : List Byte :=
  match m with
  | [] => []
  | (_, t) :: rest => t ++ SlotMemory.concat rest

/-- R17: `slot_valid[i]`. -/
def State.slotValid (s : State) (i : Byte) : Bool := (s.slots.read i).isSome

/-! ### Responses -/

/-- R49: end the command with a response. -/
def respond (code : ResponseCode) (data : Word32) (s : State) : StepResult :=
  .next { s with response := some { code := code, data := data } }

/-- R98, R107: end the command with STATUS as it is after the command's state change (R25). -/
def respondStatus (code : ResponseCode) (s : State) : StepResult := respond code s.status s

/-- R147, R150: the block's whole exception mechanism, a command error: an error code, datum 0, and no other
effect. -/
def respondError (code : ResponseCode) (s : State) : StepResult := respond code 0#32 s

/-! ### Helper procedures of the Reassembly Engine -/

/-- R102: `ClearBuffer()`. -/
def State.clearBuffer (s : State) : State := { s with slots := [] }

/-- R102: `ClearOut()`. -/
def State.clearOut (s : State) : State := { s with out := [] }

/-- R32, R100: record a slice in its slot. -/
def State.recordSlice (s : State) (index : Byte) (slice : List Byte) : State :=
  { s with slots := s.slots.write index slice }

/-- R104: the stale-transfer reset, taken when the new count conflicts. -/
def State.staleReset (s : State) (count : Byte) : State :=
  if s.staleConflict count then { s.clearBuffer with stale := true } else s

/-- R103: learn a frame's count, after the stale test against the count recorded before it; a frame without a count
changes nothing. -/
def State.learnCount (s : State) (count : Option Byte) : State :=
  match count with
  | none => s
  | some c => { s.staleReset c with expTotal := c, expValid := true }

/-- R106: what `Finish` concludes from the concatenation: the recovered payload, or `none` for a mismatch. The last 4
bytes are the checksum field. -/
def validate (cat : List Byte) : Option (List Byte) :=
  if 4 ≤ cat.length then
    if hex4 (cat.drop (cat.length - 4)) = some (checksum (cat.take (cat.length - 4))) then
      some (cat.take (cat.length - 4))
    else none
  else none

/-- R106: `Finish()`. -/
def State.finish (s : State) : State :=
  match validate s.slots.concat with
  | some body => { s.clearBuffer with out := body, outcome := .success, st := .complete }
  | none => { s.clearBuffer with out := [], outcome := .checksumMismatch, st := .complete }

/-- R100, R101: the two orders of recording the slice and learning the count. -/
def State.collect (s : State) (count : Option Byte) (index : Byte) (slice : List Byte) : State :=
  match s.cfg.staleOrder with
  | .checkThenRecord => (s.learnCount count).recordSlice index slice
  | .recordThenCheck => (s.recordSlice index slice).learnCount count

/-- R105: run `Finish` when the completion test holds. -/
def State.finishIfComplete (s : State) : State := if s.completionTest then s.finish else s

/-- R100, R101: `Accept(p, s)`. -/
def State.accept (s : State) (count : Option Byte) (index : Byte) (slice : List Byte) : State :=
  State.finishIfComplete { s.collect count index slice with timer := 0#32, st := .collecting }

/-- R98, the part after the parse: an accepted frame during an active cycle, IGNORED otherwise (R109). -/
def acceptFrame (count : Option Byte) (index : Byte) (slice : List Byte) (s : State) : StepResult :=
  if s.cycleActive then respondStatus .ok (s.accept count index slice)
  else respondStatus .ignored s

/-- R96, R97: what RX.START and RX.ABORT have in common: everything a cycle left is erased; `crc` is not touched. -/
def State.eraseCycle (s : State) (st : RxState) (tmo : Word32) : State :=
  { s.clearBuffer.clearOut with
    expValid := false, expTotal := 0#8, timer := 0#32, tmo := tmo, malf := false, stale := false,
    outcome := .none, st := st }

/-- R107, R108: the timeout transition, with no partial payload surfaced. -/
def State.timeOut (s : State) : State :=
  { s.clearBuffer.clearOut with outcome := .timeout, st := .timedOut }

/-- R107: one counted tick. -/
def State.countTick (s : State) : State :=
  let t := { s with timer := satIncr s.timer }
  if t.timerExpired then t.timeOut else t

/-! ### The port -/

/-- R160: reset, with the parameters kept and the events still waiting at the port kept (assumption log 5). -/
def State.applyReset (s : State) : State := { State.resetOf s.cfg with port := s.port }

/-- What the port holds for the next step. -/
inductive Fetched where
  /-- nothing has been presented: the block waits (R161) -/
  | waiting
  /-- reset arrives before the next command (R160) -/
  | reset (t : State)
  /-- the next command does not decode (R51) -/
  | rejected (e : CommandError) (t : State)
  /-- the next command decodes to an instruction -/
  | command (i : Instr) (t : State)

/-- R41, R45, R51: take the oldest event from the port and decode it; `t` is the state without that event. -/
def State.fetch (s : State) : Fetched :=
  match s.port with
  | [] => .waiting
  | .reset :: rest => .reset { s with port := rest }
  | .command bytes :: rest =>
    match decode s.cfg bytes with
    | .error e => .rejected e { s with port := rest }
    | .ok i => .command i { s with port := rest }

end Sys2Proof.Machine
end

