-- ==== Sys2Proof/Machine/ChecksumEngine.lean ====
section
/-! DEFINITION. The meanings of the Checksum Engine's commands (40_checksum.md). -/

namespace Sys2Proof.Machine

/-- R75: CRC.INIT. -/
def execCrcInit (s : State) : StepResult :=
  respond .ok (Config.crcInit.setWidth 32) { s with crc := Config.crcInit }

/-- R76: CRC.BYTE `b`. -/
def execCrcByte (b : Byte) (s : State) : StepResult :=
  respond .ok ((upd s.crc b).setWidth 32) { s with crc := upd s.crc b }

end Sys2Proof.Machine
end

