-- ==== Sys2Proof/Machine/FrameParser.lean ====
section
/-! DEFINITION. The meaning of the Frame Parser's command (41_parser.md). -/

namespace Sys2Proof.Machine

/-- R86: FP.PARSE `raw`; the malformed verdict is no error but the datum 0. -/
def execFpParse (raw : List Byte) (s : State) : StepResult :=
  respond .ok (parseDatum (parseFrame s.cfg raw)) s

end Sys2Proof.Machine
end

