-- ==== Sys2Proof/Machine/Readout.lean ====
section
/-! DEFINITION. The meanings of the read commands (43_status_and_readout.md): they write no state. -/

namespace Sys2Proof.Machine

/-- R120: RD `r`. -/
def execRd (r : Byte) (s : State) : StepResult :=
  match s.statusRegister r with
  | some d => respond .ok d s
  | none => respondError .errRange s

/-- R121: RX.BYTE `i`; ERR_STATE is tested before ERR_RANGE. -/
def execRxByte (i : Word16) (s : State) : StepResult :=
  if s.outcome = .success then
    match s.outByte i with
    | some b => respond .ok (b.setWidth 32) s
    | none => respondError .errRange s
  else respondError .errState s

end Sys2Proof.Machine
end

