-- ==== Sys2Proof/Machine/Reassembly.lean ====
section
/-! DEFINITION. The meanings of the Reassembly Engine's commands (42_reassembly.md), and of the two wire formats,
which reach the engine inside RX.FRAME. -/

namespace Sys2Proof.Machine

/-- R96: RX.START `T`. -/
def execRxStart (t : Word32) (s : State) : StepResult := respondStatus .ok (s.eraseCycle .idle t)

/-- R97: RX.ABORT. -/
def execRxAbort (s : State) : StepResult := respondStatus .ok (s.eraseCycle .off 0#32)

/-- R98, R99: RX.FRAME `raw`: the active-cycle test, then the parse, then `Accept`. -/
def execRxFrame (raw : List Byte) (s : State) : StepResult :=
  if s.cycleActive then
    match parseFrame s.cfg raw with
    | none => respondStatus .discarded { s with malf := true }
    | some p => acceptFrame p.count p.index (parsedSlice p raw) s
  else respondStatus .ignored s

/-- R107: RX.TICK. -/
def execRxTick (s : State) : StepResult :=
  if s.tickCounted then respondStatus .ok s.countTick
  else if s.st = .idle then respondStatus .ok s
  else respondStatus .ignored s

/-- R53, R98: a frame of format F0, as the engine receives it inside RX.FRAME (assumption log 6). -/
def execFrameF0 (count index : Byte) (slice : List Byte) (s : State) : StepResult :=
  acceptFrame (some count) index slice s

/-- R54, R98: a frame of format FN, as the engine receives it inside RX.FRAME (assumption log 6). -/
def execFrameFN (index : Byte) (slice : List Byte) (s : State) : StepResult :=
  acceptFrame none index slice s

end Sys2Proof.Machine
end

