-- ==== Sys2Proof/Machine/Dispatch.lean ====
section
/-! DEFINITION. One arm per constructor of `Instr`, each one direct call of the instruction's meaning. -/

namespace Sys2Proof.Machine

-- The effect of one decoded instruction.
def exec (i : Instr) (s : State) : Host.Outcome State Fault Refusal :=
  match i with
  | .crcInit => Sys2Proof.Machine.execCrcInit s
  | .crcByte b => Sys2Proof.Machine.execCrcByte b s
  | .fpParse raw => Sys2Proof.Machine.execFpParse raw s
  | .rxStart t => Sys2Proof.Machine.execRxStart t s
  | .rxFrame raw => Sys2Proof.Machine.execRxFrame raw s
  | .rxTick => Sys2Proof.Machine.execRxTick s
  | .rxAbort => Sys2Proof.Machine.execRxAbort s
  | .rxByte pos => Sys2Proof.Machine.execRxByte pos s
  | .rd r => Sys2Proof.Machine.execRd r s
  | .frameF0 count index slice => Sys2Proof.Machine.execFrameF0 count index slice s
  | .frameFN index slice => Sys2Proof.Machine.execFrameFN index slice s

end Sys2Proof.Machine
end

