-- ==== Sys2Proof/Machine/Step.lean ====
section
/-! DEFINITION. One step of the block: execute the oldest event at the port. -/

namespace Sys2Proof.Machine

/-- R41, R45, R51, R160, R161: one event, whole and in arrival order. A block to which the host has presented nothing
waits, unchanged (R161). A parameter set that is not well formed is refused (R6, U10). -/
def step (s : State) : Host.Outcome State Fault Refusal :=
  if s.cfg.wf then
    match s.fetch with
    | .waiting => .next s
    | .reset t => .next t.applyReset
    | .rejected e t => respondError (errorCode e) t
    | .command i t => exec i t
  else .refused .illFormedParameters

/-- `s` with the command of a table word presented at the front of the port: the host presents the command, which is
how anything comes to run on this block (assumption log 9). -/
def State.withFetchWord (s : State) (nbits w : Nat) : State :=
  { s with port := .command (tableCommand nbits w) :: s.port }

end Sys2Proof.Machine
end

