-- ==== Sys2Proof/Machine/Packer.lean ====
section
/-! DEFINITION. The reference packer (44_packer_reference.md): not part of the block (00_scope.md R4), no state and no
command. It says which frame sequences are well-formed transfers, so that claims about reassembly can be stated. -/

namespace Sys2Proof.Machine

/-- R133: the packer's one error kind; the block never raises it. -/
inductive PackError where
  | frameCountOverflow
  deriving DecidableEq, Repr

/-- R130 step 2: the Wire-Wrapped Payload with the placeholder `"00"` for the count. -/
def wrapped (cfg : Config) (p : List Byte) : List Byte :=
  cfg.marker ++ [0x30#8, 0x30#8] ++ p ++ toHex4 cfg.hexUpper (checksum p)

/-- R130 step 3: the number of chunks of `c` bytes, rounded up. -/
def chunkCount (c len : Nat) : Nat := (len + c - 1) / c

/-- R130 step 3: chunk `k` of `w`. -/
def chunk (c : Nat) (w : List Byte) (k : Nat) : List Byte := (w.drop (k * c)).take c

/-- R130 step 4: chunk 0 with the count in place of the placeholder. -/
def stampCount (cfg : Config) (n : Nat) (chunk0 : List Byte) : List Byte :=
  chunk0.take cfg.markerLen ++ toHex2 cfg.hexUpper (BitVec.ofNat 8 n) ++ chunk0.drop (cfg.markerLen + 2)

/-- R130 step 5: frame `k` of `n`: chunk 0 takes its index after marker and count, any other chunk in front. -/
def packFrame (cfg : Config) (c n : Nat) (w : List Byte) (k : Nat) : List Byte :=
  if k = 0 then
    (stampCount cfg n (chunk c w 0)).take (cfg.markerLen + 2) ++ toHex2 cfg.hexUpper 0#8
      ++ (stampCount cfg n (chunk c w 0)).drop (cfg.markerLen + 2)
  else toHex2 cfg.hexUpper (BitVec.ofNat 8 k) ++ chunk c w k

/-- R130: `Pack(P, M)`, defined by the rule for `MARKER_LEN + 4 <= M <= 255` (R132); rejected above 255 frames (R133). -/
def pack (cfg : Config) (m : Nat) (p : List Byte) : Except PackError (List (List Byte)) :=
  if chunkCount (m - 2) (wrapped cfg p).length > 255 then .error .frameCountOverflow
  else .ok ((List.range (chunkCount (m - 2) (wrapped cfg p).length)).map
    (packFrame cfg (m - 2) (chunkCount (m - 2) (wrapped cfg p).length) (wrapped cfg p)))

end Sys2Proof.Machine
end

