-- ==== Sys2Proof/Safety.lean ====
section
/-! DEFINITION. What the claims call a good state (the invariants of 10_state.md R29) and how they read a step's
answer. -/

namespace Sys2Proof.Machine

/-- The next state a step answers, if it answers one. -/
def nextOf (r : StepResult) : Option State :=
  match r with
  | .next s => some s
  | .fault _ => none
  | .refused _ => none

/-- The state in which the host has presented a command and the block takes it next (R45). -/
def State.present (s : State) (bytes : List Byte) : State := { s with port := .command bytes :: s.port }

/-- The answer that changes nothing of `s` but gives a response (R49). -/
def onlyAnswers (s : State) (code : ResponseCode) (data : Word32) : StepResult :=
  .next { s with response := some { code := code, data := data } }

/-- The state after a sequence of commands, each executed to its end before the next (R39). -/
def runAll (is : List Instr) (s : State) : Option State :=
  match is with
  | [] => some s
  | i :: rest =>
    match nextOf (exec i s) with
    | some t => runAll rest t
    | none => none

/-- R104, for an occupancy `occ`: the frame's count conflicts with the recorded one and `occ` exceeds it. -/
def conflicts (s : State) (count : Option Byte) (occ : Nat) : Bool :=
  match count with
  | none => false
  | some c => s.expValid && s.expTotal != c && decide (c.toNat < occ)

/-- The entries of a slot store after one more slice: one more unless the index was filled (R100). -/
def filled (m : SlotMemory) (i : Byte) : Nat := if (m.read i).isSome then m.length else m.length + 1

/-- R112: never more than `limit` RX.TICK in a row, `n` having stood in a row before. -/
def ticksBounded (limit : Nat) : Nat → List Instr → Bool
  | _, [] => true
  | n, .rxTick :: rest => decide (n + 1 ≤ limit) && ticksBounded limit (n + 1) rest
  | _, _ :: rest => ticksBounded limit 0 rest

/-- The message byte of a CRC.BYTE command. -/
def crcByteOf : Instr → Option Byte
  | .crcByte b => some b
  | _ => none

/-- The command is one of the Checksum Engine's. -/
def isCrcCommand (i : Instr) : Bool := i == .crcInit || (crcByteOf i).isSome

/-- R15: which outcome goes with which control state. -/
def pairingOk (st : RxState) (o : CycleOutcome) : Prop :=
  match st with
  | .off => o = .none
  | .idle => o = .none
  | .collecting => o = .none
  | .complete => o = .success ∨ o = .checksumMismatch
  | .timedOut => o = .timeout

/-- R29, with the parameter set well formed (R6), the slot store in its canonical form (item 1: `occ` is then the
number of valid indices) and R22's bound on the recovered payload. -/
structure State.Inv (s : State) : Prop where
  /-- R6 -/
  cfgWf : s.cfg.wf = true
  /-- the slot store is canonical (item 1) -/
  slotsWf : s.slots.wf
  /-- item 2, first half -/
  emptyOutsideCollecting : s.st ≠ .collecting → s.occ = 0
  /-- item 2, second half -/
  occupiedInCollecting : s.st = .collecting → s.cfg.staleOrder = .checkThenRecord → 1 ≤ s.occ
  /-- item 3, first half -/
  totalZeroUnlessValid : s.expValid = false → s.expTotal = 0#8
  /-- item 3, second half -/
  unknownBeforeFrames : s.st = .off ∨ s.st = .idle → s.expValid = false
  /-- item 4 -/
  paired : pairingOk s.st s.outcome
  /-- item 5 -/
  payloadOnlyOnSuccess : s.out ≠ [] → s.outcome = .success
  /-- R22: the payload's length bound, so that `out_len` is its exact length -/
  payloadBound : s.out.length ≤ 255 * (s.cfg.maxFrame - 2) - 4
  /-- item 6, COLLECTING -/
  timerWhileCollecting : s.st = .collecting → s.timer.toNat ≤ s.tmo.toNat
  /-- item 6, IDLE -/
  timerWhileIdle : s.st = .idle →
    if s.cfg.idleTimeoutEn then s.timer.toNat ≤ s.tmo.toNat else s.timer = 0#32
  /-- item 7 -/
  notYetComplete : s.st = .collecting → s.expValid = true → s.occ ≠ s.expTotal.toNat
  /-- item 8 -/
  sliceBound : ∀ i t, s.slots.read i = some t → t.length ≤ s.cfg.maxFrame - 2

end Sys2Proof.Machine
end

