-- ==== Sys2Proof/Certificates/Slice0/Obligations.lean ====
section
/-! DEFINITION. The statements for the provers, in the order of OBLIGATIONS.json. Each docstring names the rule of
spec/ it formalises. A statement about the next state names that state whole, so it is also the instruction's frame. -/

open Sys2Proof Sys2Proof.Machine

/-! ### Checksum Engine -/

/-- R75: CRC.INIT, its encoding, its answer, its error, and that nothing else changes. -/
def Obligations.CrcInitLoadsInitialValue : Prop :=
  ∀ s : State, s.cfg.wf = true →
    exec .crcInit s = .next { s with crc := 0x1D0F#16, response := some ⟨.ok, 0x00001D0F#32⟩ } ∧
    step (s.present [0x10#8]) = exec .crcInit s ∧
    ∀ b bs, step (s.present (0x10#8 :: b :: bs)) = onlyAnswers s .errFormat 0#32

/-- R72, R76: CRC.BYTE folds one byte through the table, answers the new register, and changes nothing else; and after
CRC.INIT, whatever commands of other families stand between the CRC.BYTE commands, the register is the checksum of the
bytes folded so far. -/
def Obligations.CrcByteFoldsOneByte : Prop :=
  ∀ s : State, s.cfg.wf = true →
    (∀ b : Byte,
      (let c := (s.crc <<< 8) ^^^ tab (s.crc.extractLsb 15 8 ^^^ b)
       exec (.crcByte b) s = .next { s with crc := c, response := some ⟨.ok, c.setWidth 32⟩ }) ∧
      step (s.present [0x11#8, b]) = exec (.crcByte b) s) ∧
    (∀ bs, bs.length ≠ 1 → step (s.present (0x11#8 :: bs)) = onlyAnswers s .errFormat 0#32) ∧
    ∀ is : List Instr, .crcInit ∉ is →
      ∃ t, runAll (.crcInit :: is) s = some t ∧ t.crc = checksum (is.filterMap crcByteOf)

/-- R70, R71: the printed table is the one the polynomial generates: the index in the high byte, then eight shifts towards
the most significant bit, with 0x1021 where a 1 leaves. -/
def Obligations.TableIsGeneratedByPolynomial : Prop :=
  ∀ i : Byte, tab i =
    Nat.iterate (fun r : Word16 => if r.msb = true then (r <<< 1) ^^^ 0x1021#16 else r <<< 1) 8 (i ++ 0#8)

/-- R73: the table-driven update equals the bit-serial form, for every register value and byte. -/
def Obligations.TableUpdateEqualsBitSerial : Prop :=
  ∀ (c : Word16) (b : Byte), upd c b =
    Nat.iterate (fun r : Word16 => if r.msb = true then (r <<< 1) ^^^ 0x1021#16 else r <<< 1) 8 (c ^^^ (b ++ 0#8))

/-- R79 laws 2 and 3: incrementality and affine linearity. -/
def Obligations.ChecksumIsIncrementalAndAffine : Prop :=
  (∀ s t : List Byte, checksum (s ++ t) = crcFold (checksum s) t) ∧
  ∀ s e : List Byte, s.length = e.length →
    checksum (List.zipWith (· ^^^ ·) s e) = checksum s ^^^ crcFold 0#16 e

/-- R79 law 4: flipping exactly one bit of a message always changes its checksum. -/
def Obligations.OneFlippedBitChangesChecksum : Prop :=
  ∀ (s : List Byte) (k : Nat) (j : Fin 8) (h : k < s.length),
    checksum (s.set k (s[k] ^^^ (1#8 <<< j.val))) ≠ checksum s

/-! ### Hexadecimal codec and Frame Parser -/

/-- R55: the 22 hexadecimal digit characters and no other character. -/
def Obligations.HexDigitsAreExactly22Characters : Prop :=
  ∀ (c : Byte) (v : Nat), hexVal c = some v ↔
    (0x30 ≤ c.toNat ∧ c.toNat ≤ 0x39 ∧ v = c.toNat - 0x30) ∨
    (0x41 ≤ c.toNat ∧ c.toNat ≤ 0x46 ∧ v = c.toNat - 0x41 + 10) ∨
    (0x61 ≤ c.toNat ∧ c.toNat ≤ 0x66 ∧ v = c.toNat - 0x61 + 10)

/-- R56, R57: the 2-character and 4-character fields, most significant digit first. -/
def Obligations.HexFieldsAreMostSignificantDigitFirst : Prop :=
  (∀ c1 c0 v : Byte, hexByte c1 c0 = some v ↔
    ∃ a b, hexVal c1 = some a ∧ hexVal c0 = some b ∧ v.toNat = 16 * a + b) ∧
  ∀ (f : List Byte) (v : Word16), hex4 f = some v ↔
    ∃ f0 f1 f2 f3 d0 d1 d2 d3, f = [f0, f1, f2, f3] ∧ hexVal f0 = some d0 ∧ hexVal f1 = some d1 ∧
      hexVal f2 = some d2 ∧ hexVal f3 = some d3 ∧ v.toNat = 4096 * d0 + 256 * d1 + 16 * d2 + d3

/-- R58: how a field is rendered, and that reading it back gives the value, in either letter case. -/
def Obligations.HexFieldsReadBack : Prop :=
  ∀ upper : Bool,
    let digit := fun d : BitVec 4 =>
      BitVec.ofNat 8 (if d.toNat ≤ 9 then 0x30 + d.toNat
        else if upper then 0x41 + d.toNat - 10 else 0x61 + d.toNat - 10)
    (∀ v : Byte, ∃ c1 c0, toHex2 upper v = [c1, c0] ∧ c1 = digit (v.extractLsb 7 4) ∧ c0 = digit (v.extractLsb 3 0) ∧
      hexByte c1 c0 = some v) ∧
    ∀ v : Word16,
      toHex4 upper v = [digit (v.extractLsb 15 12), digit (v.extractLsb 11 8), digit (v.extractLsb 7 4),
        digit (v.extractLsb 3 0)] ∧
      hex4 (toHex4 upper v) = some v

/-- R87: a raw frame is malformed in exactly the four cases of R60. -/
def Obligations.MalformedInExactlyFourCases : Prop :=
  ∀ (cfg : Config) (raw : List Byte),
    let isF0 := cfg.markerLen ≤ raw.length ∧ raw.take cfg.markerLen = cfg.marker
    let isHex := fun (k : Nat) => ∃ c v, raw[k]? = some c ∧ hexVal c = some v
    parseFrame cfg raw = none ↔
      (isF0 ∧ raw.length < cfg.markerLen + 4) ∨
      (isF0 ∧ cfg.markerLen + 4 ≤ raw.length ∧
        ¬ (isHex cfg.markerLen ∧ isHex (cfg.markerLen + 1) ∧ isHex (cfg.markerLen + 2) ∧ isHex (cfg.markerLen + 3))) ∨
      (¬ isF0 ∧ raw.length < 2) ∨
      (¬ isF0 ∧ 2 ≤ raw.length ∧ ¬ (isHex 0 ∧ isHex 1))

/-- R53, R54, R59: which format a raw frame is, and the fields and payload slice it decodes to. -/
def Obligations.FramesDecodeByTheirMarker : Prop :=
  ∀ (cfg : Config) (raw : List Byte),
    (∀ c1 c0 i1 i0 c i slice, raw = cfg.marker ++ c1 :: c0 :: i1 :: i0 :: slice → hexByte c1 c0 = some c →
      hexByte i1 i0 = some i →
      parseFrame cfg raw = some { count := some c, index := i, off := cfg.markerLen + 4 } ∧
      raw.drop (cfg.markerLen + 4) = slice ∧ decodeFrame cfg raw = some (.frameF0 c i slice)) ∧
    (∀ i1 i0 i slice, raw = i1 :: i0 :: slice →
      ¬ (cfg.markerLen ≤ raw.length ∧ raw.take cfg.markerLen = cfg.marker) → hexByte i1 i0 = some i →
      parseFrame cfg raw = some { count := none, index := i, off := 2 } ∧
      raw.drop 2 = slice ∧ decodeFrame cfg raw = some (.frameFN i slice)) ∧
    ∀ p, parseFrame cfg raw = some p →
      (p.count.isSome = true ↔ cfg.markerLen ≤ raw.length ∧ raw.take cfg.markerLen = cfg.marker)

/-- R90 item 1: under a well-formed parameter set, a frame whose first two bytes are hexadecimal characters is never
decoded as F0. -/
def Obligations.HexHeadIsNeverF0 : Prop :=
  ∀ (cfg : Config) (c1 c0 : Byte) (rest : List Byte), cfg.wf = true →
    (hexVal c1).isSome = true → (hexVal c0).isSome = true →
    (c1 :: c0 :: rest).take cfg.markerLen ≠ cfg.marker

/-- R86: FP.PARSE: the datum field by field, the encoding, the errors, and that no state changes. -/
def Obligations.FpParseReportsTheParse : Prop :=
  ∀ (s : State) (raw : List Byte), s.cfg.wf = true → raw.length ≤ s.cfg.maxFrame →
    step (s.present (0x20#8 :: BitVec.ofNat 8 raw.length :: raw)) = exec (.fpParse raw) s ∧
    (∃ d : Word32, exec (.fpParse raw) s = onlyAnswers s .ok d ∧
      match parseFrame s.cfg raw with
      | none => d = 0#32
      | some p =>
        (d.extractLsb 7 0).toNat = p.off ∧ d.extractLsb 15 8 = p.index ∧ d.extractLsb 23 16 = p.count.getD 0#8 ∧
        d.getLsbD 24 = true ∧ d.getLsbD 25 = p.count.isSome ∧ d.extractLsb 31 26 = 0#6) ∧
    (∀ (n : Byte) (bs : List Byte), bs.length ≠ n.toNat →
      step (s.present (0x20#8 :: n :: bs)) = onlyAnswers s .errFormat 0#32) ∧
    step (s.present [0x20#8]) = onlyAnswers s .errFormat 0#32 ∧
    ∀ (n : Byte) (bs : List Byte), bs.length = n.toNat → s.cfg.maxFrame < n.toNat →
      step (s.present (0x20#8 :: n :: bs)) = onlyAnswers s .errLen 0#32

/-! ### Reassembly Engine -/

/-- R96: RX.START, from every state. -/
def Obligations.RxStartBeginsACycle : Prop :=
  ∀ (s : State) (t3 t2 t1 t0 : Byte), s.cfg.wf = true →
    step (s.present [0x30#8, t3, t2, t1, t0]) = exec (.rxStart (t3 ++ t2 ++ t1 ++ t0)) s ∧
    (∀ t : Word32, exec (.rxStart t) s =
      .next { s with slots := [], out := [], expValid := false, expTotal := 0#8, timer := 0#32, tmo := t,
                     malf := false, stale := false, outcome := .none, st := .idle,
                     response := some ⟨.ok, 0x00000001#32⟩ }) ∧
    ∀ bs, bs.length ≠ 4 → step (s.present (0x30#8 :: bs)) = onlyAnswers s .errFormat 0#32

/-- R97: RX.ABORT, from every state: the reset values but for `crc`. -/
def Obligations.RxAbortLeavesTheResetState : Prop :=
  ∀ s : State, s.cfg.wf = true →
    step (s.present [0x33#8]) = exec .rxAbort s ∧
    exec .rxAbort s =
      .next { State.resetOf s.cfg with crc := s.crc, port := s.port, response := some ⟨.ok, 0x00000000#32⟩ } ∧
    ∀ b bs, step (s.present (0x33#8 :: b :: bs)) = onlyAnswers s .errFormat 0#32

/-- R98, R99: RX.FRAME: ignored outside a cycle, discarded when malformed (only `malf` is set), accepted otherwise. -/
def Obligations.RxFrameIsIgnoredDiscardedOrAccepted : Prop :=
  ∀ (s : State) (raw : List Byte), s.cfg.wf = true → raw.length ≤ s.cfg.maxFrame →
    step (s.present (0x31#8 :: BitVec.ofNat 8 raw.length :: raw)) = exec (.rxFrame raw) s ∧
    (s.st ≠ .idle ∧ s.st ≠ .collecting → exec (.rxFrame raw) s = onlyAnswers s .ignored s.status) ∧
    (s.st = .idle ∨ s.st = .collecting →
      match parseFrame s.cfg raw with
      | none =>
        exec (.rxFrame raw) s = onlyAnswers { s with malf := true } .discarded { s with malf := true }.status
      | some p =>
        exec (.rxFrame raw) s = onlyAnswers (s.accept p.count p.index (raw.drop p.off)) .ok
          (s.accept p.count p.index (raw.drop p.off)).status) ∧
    (∀ (n : Byte) (bs : List Byte), bs.length ≠ n.toNat →
      step (s.present (0x31#8 :: n :: bs)) = onlyAnswers s .errFormat 0#32) ∧
    step (s.present [0x31#8]) = onlyAnswers s .errFormat 0#32 ∧
    ∀ (n : Byte) (bs : List Byte), bs.length = n.toNat → s.cfg.maxFrame < n.toNat →
      step (s.present (0x31#8 :: n :: bs)) = onlyAnswers s .errLen 0#32

/-- R53, R54, R98, through assumption log 6: a wire format's own effect is that of the RX.FRAME that carries it, in every
state; and inside a cycle it is accepted. -/
def Obligations.FrameEffectIsItsRxFrame : Prop :=
  ∀ (s : State),
    (∀ (raw : List Byte) (f : Instr), decodeFrame s.cfg raw = some f → exec f s = exec (.rxFrame raw) s) ∧
    (s.st = .idle ∨ s.st = .collecting → ∀ (c i : Byte) (slice : List Byte),
      exec (.frameF0 c i slice) s =
        onlyAnswers (s.accept (some c) i slice) .ok (s.accept (some c) i slice).status ∧
      exec (.frameFN i slice) s = onlyAnswers (s.accept none i slice) .ok (s.accept none i slice).status) ∧
    (s.st ≠ .idle ∧ s.st ≠ .collecting → ∀ (c i : Byte) (slice : List Byte),
      exec (.frameF0 c i slice) s = onlyAnswers s .ignored s.status ∧
      exec (.frameFN i slice) s = onlyAnswers s .ignored s.status)

/-- R100: `Accept` under `check_then_record`, slot by slot: the stale test on the occupancy before the
frame, the count learned, the slice recorded, the timer restarted, and `Finish` exactly when the test holds. -/
def Obligations.AcceptChecksThenRecords : Prop :=
  ∀ (s : State) (count : Option Byte) (i : Byte) (slice : List Byte),
    s.slots.wf → s.cfg.staleOrder = .checkThenRecord →
    let conflict := conflicts s count s.occ
    let kept : SlotMemory := if conflict then [] else s.slots
    ∃ m : SlotMemory, m.wf ∧ m.length = filled kept i ∧
      (∀ j, m.read j = if j = i then some slice else kept.read j) ∧
      let t : State := { s with slots := m, stale := s.stale || conflict, expTotal := count.getD s.expTotal,
                                expValid := s.expValid || count.isSome, timer := 0#32, st := .collecting }
      (t.expValid = true ∧ m.length = t.expTotal.toNat → s.accept count i slice = t.finish) ∧
      (¬ (t.expValid = true ∧ m.length = t.expTotal.toNat) → s.accept count i slice = t)

/-- R101: `Accept` under `record_then_check`: the stale test on the occupancy after recording, and a clearing that
discards the triggering slice too; and on a frame that carries no count different from the recorded one it gives what
`check_then_record` gives. -/
def Obligations.AcceptRecordsThenChecks : Prop :=
  ∀ (s : State) (count : Option Byte) (i : Byte) (slice : List Byte),
    s.slots.wf → s.cfg.staleOrder = .recordThenCheck →
    ((∀ c, count = some c → s.expValid = true → s.expTotal = c) →
      { s with cfg := { s.cfg with staleOrder := .checkThenRecord } }.accept count i slice =
        { s.accept count i slice with cfg := { s.cfg with staleOrder := .checkThenRecord } }) ∧
    let conflict := conflicts s count (filled s.slots i)
    ∃ m : SlotMemory, m.wf ∧ m.length = (if conflict then 0 else filled s.slots i) ∧
      (∀ j, m.read j = if conflict then none else if j = i then some slice else s.slots.read j) ∧
      let t : State := { s with slots := m, stale := s.stale || conflict, expTotal := count.getD s.expTotal,
                                expValid := s.expValid || count.isSome, timer := 0#32, st := .collecting }
      (t.expValid = true ∧ m.length = t.expTotal.toNat → s.accept count i slice = t.finish) ∧
      (¬ (t.expValid = true ∧ m.length = t.expTotal.toNat) → s.accept count i slice = t)

/-- R106: `Finish`: the concatenation of the valid slots by ascending index, split before its last 4 bytes; SUCCESS
exactly when those are the hexadecimal checksum of the rest; the buffer discarded and COMPLETE entered either way. -/
def Obligations.FinishValidatesTheConcatenation : Prop :=
  ∀ s : State, s.slots.wf →
    let cat := (List.range 256).flatMap (fun i => (s.slots.read (BitVec.ofNat 8 i)).getD [])
    (∀ body field, cat = body ++ field → field.length = 4 → hex4 field = some (checksum body) →
      s.finish = { s with slots := [], out := body, outcome := .success, st := .complete }) ∧
    ((∀ body field, cat = body ++ field → field.length = 4 → hex4 field ≠ some (checksum body)) →
      s.finish = { s with slots := [], out := [], outcome := .checksumMismatch, st := .complete })

/-- R107: RX.TICK in every state. -/
def Obligations.RxTickCountsAndTimesOut : Prop :=
  ∀ s : State, s.cfg.wf = true →
    let counted := s.st = .collecting ∨ (s.st = .idle ∧ s.cfg.idleTimeoutEn = true)
    let timer' : Word32 := BitVec.ofNat 32 (min (s.timer.toNat + 1) 0xFFFFFFFF)
    step (s.present [0x32#8]) = exec .rxTick s ∧
    (counted → ¬ s.tmo < timer' →
      exec .rxTick s = onlyAnswers { s with timer := timer' } .ok { s with timer := timer' }.status) ∧
    (counted → s.tmo < timer' →
      let t : State := { s with timer := timer', slots := [], out := [], outcome := .timeout, st := .timedOut }
      exec .rxTick s = onlyAnswers t .ok t.status) ∧
    (s.st = .idle → s.cfg.idleTimeoutEn = false → exec .rxTick s = onlyAnswers s .ok s.status) ∧
    (s.st ≠ .idle → s.st ≠ .collecting → exec .rxTick s = onlyAnswers s .ignored s.status) ∧
    ∀ b bs, step (s.present (0x32#8 :: b :: bs)) = onlyAnswers s .errFormat 0#32

/-- R108, R175: with no accepted frame in between, a collecting cycle survives exactly `tmo` ticks and ends on the next;
with `tmo = 0xFFFFFFFF` it survives every number of ticks (R113). -/
def Obligations.CycleSurvivesExactlyTmoTicks : Prop :=
  ∀ s : State, s.st = .collecting → s.timer = 0#32 →
    (∀ k, k ≤ s.tmo.toNat →
      ∃ t, runAll (List.replicate k .rxTick) s = some t ∧ t.st = .collecting ∧ t.timer.toNat = k ∧ t.slots = s.slots) ∧
    (s.tmo ≠ 0xFFFFFFFF#32 →
      ∃ t, runAll (List.replicate (s.tmo.toNat + 1) .rxTick) s = some t ∧
        t.st = .timedOut ∧ t.outcome = .timeout ∧ t.out = [] ∧ t.occ = 0) ∧
    (s.tmo = 0xFFFFFFFF#32 → ∀ k,
      ∃ t, runAll (List.replicate k .rxTick) s = some t ∧ t.st = .collecting ∧ t.slots = s.slots)

/-- R109: outside an active cycle every sequence of RX.FRAME and RX.TICK is IGNORED and changes nothing; and whatever else
the host sends, everything but `crc` keeps its value until RX.START, RX.ABORT or reset. -/
def Obligations.TerminalStatesHold : Prop :=
  ∀ (s : State) (is : List Instr), s.st ≠ .idle → s.st ≠ .collecting →
    (is ≠ [] → (∀ i ∈ is, i = .rxTick ∨ ∃ raw, i = .rxFrame raw) →
      runAll is s = some { s with response := some ⟨.ignored, s.status⟩ }) ∧
    ((∀ i ∈ is, i ≠ .rxAbort ∧ ∀ t, i ≠ .rxStart t) →
      ∃ u, runAll is s = some u ∧ { u with crc := s.crc, response := s.response } = s)

/-- R103: an accepted frame with a count sets the expected total, one without leaves it; and without a marker-bearing
frame Complete is unreachable, whatever else the host sends in the cycle. -/
def Obligations.ExpectedTotalComesFromMarkerFrames : Prop :=
  ∀ s : State,
    (∀ (c i : Byte) (slice : List Byte),
      (s.accept (some c) i slice).expTotal = c ∧ (s.accept (some c) i slice).expValid = true ∧
      (s.accept none i slice).expTotal = s.expTotal ∧ (s.accept none i slice).expValid = s.expValid) ∧
    ∀ (t : State) (is : List Instr), s.expValid = false → s.st = .idle ∨ s.st = .collecting →
      (∀ i ∈ is, i.isCommand = true ∧ ∀ raw p, i = .rxFrame raw → parseFrame s.cfg raw = some p → p.count = none) →
      runAll is s = some t → t.st ≠ .complete ∧ t.expValid = false

/-! ### Status and payload readout -/

/-- R25: the STATUS word, field by field, with the codes of R14 and R15, and the commands that answer it. -/
def Obligations.StatusWordFields : Prop :=
  ∀ s : State,
    s.status.extractLsb 2 0 =
      (match s.st with | .off => 0#3 | .idle => 1#3 | .collecting => 2#3 | .complete => 3#3 | .timedOut => 4#3) ∧
    s.status.extractLsb 4 3 =
      (match s.outcome with | .none => 0#2 | .success => 1#2 | .checksumMismatch => 2#2 | .timeout => 3#2) ∧
    s.status.getLsbD 5 = s.expValid ∧ s.status.getLsbD 6 = s.malf ∧ s.status.getLsbD 7 = s.stale ∧
    s.status.extractLsb 31 8 = 0#24 ∧
    ∀ (i : Instr) (t : State), exec i s = .next t →
      (i = .rxAbort ∨ i = .rxTick ∨ i = .rd 0#8 ∨ (∃ d, i = .rxStart d) ∨ ∃ raw, i = .rxFrame raw) →
      ∃ code, t.response = some ⟨code, t.status⟩

/-- R120: RD for every register number, with its encoding, its errors, and that no state changes. -/
def Obligations.RdReadsEveryStatusRegister : Prop :=
  ∀ s : State, s.cfg.wf = true →
    (∀ r, step (s.present [0x40#8, r]) = exec (.rd r) s) ∧
    exec (.rd 0#8) s = onlyAnswers s .ok s.status ∧
    exec (.rd 1#8) s = onlyAnswers s .ok (s.expTotal.setWidth 32) ∧
    exec (.rd 2#8) s = onlyAnswers s .ok (BitVec.ofNat 32 s.slots.length) ∧
    exec (.rd 3#8) s = onlyAnswers s .ok s.timer ∧
    exec (.rd 4#8) s = onlyAnswers s .ok s.tmo ∧
    exec (.rd 5#8) s = onlyAnswers s .ok ((BitVec.ofNat 16 s.out.length).setWidth 32) ∧
    exec (.rd 6#8) s = onlyAnswers s .ok (s.crc.setWidth 32) ∧
    (∀ r : Byte, 6 < r.toNat → exec (.rd r) s = onlyAnswers s .errRange 0#32) ∧
    ∀ bs, bs.length ≠ 1 → step (s.present (0x40#8 :: bs)) = onlyAnswers s .errFormat 0#32

/-- R121: RX.BYTE in every state, with its encoding, its errors in their order, and that no state changes. -/
def Obligations.RxByteReadsTheRecoveredPayload : Prop :=
  ∀ s : State, s.cfg.wf = true →
    (∀ h1 h0 : Byte, step (s.present [0x34#8, h1, h0]) = exec (.rxByte (h1 ++ h0)) s) ∧
    (∀ i : Word16, s.outcome ≠ .success → exec (.rxByte i) s = onlyAnswers s .errState 0#32) ∧
    (∀ i : Word16, s.outcome = .success → s.out.length ≤ i.toNat →
      exec (.rxByte i) s = onlyAnswers s .errRange 0#32) ∧
    (∀ (i : Word16) (h : i.toNat < s.out.length), s.outcome = .success →
      exec (.rxByte i) s = onlyAnswers s .ok (s.out[i.toNat].setWidth 32)) ∧
    ∀ bs, bs.length ≠ 2 → step (s.present (0x34#8 :: bs)) = onlyAnswers s .errFormat 0#32

/-- R49: the response on the port: the code byte, then the datum most significant byte first. -/
def Obligations.ResponseIsFiveBytesBigEndian : Prop :=
  ∀ r : Response, ∃ b3 b2 b1 b0 : Byte, r.bytes = [r.code.byte, b3, b2, b1, b0] ∧ b3 ++ b2 ++ b1 ++ b0 = r.data ∧
    (r.code.byte = match r.code with
      | .ok => 0x00#8 | .discarded => 0x01#8 | .ignored => 0x02#8 | .errOp => 0x80#8 | .errFormat => 0x81#8
      | .errLen => 0x82#8 | .errState => 0x83#8 | .errRange => 0x84#8)

/-! ### The command port -/

/-- R41, R45: when the bytes at the front of the port decode to an instruction, the step is that instruction's effect on
the state without them. -/
def Obligations.StepRunsTheDecodedCommand : Prop :=
  ∀ (s : State) (bytes : List Byte) (rest : List PortEvent) (i : Instr), s.cfg.wf = true →
    s.port = .command bytes :: rest → decode s.cfg bytes = .ok i → step s = exec i { s with port := rest }

/-- R47, R48: which command each opcode is, with its operand assembled most significant byte first. -/
def Obligations.OpcodeMapExecutesTheNineCommands : Prop :=
  ∀ s : State, s.cfg.wf = true →
    step (s.present [0x10#8]) = exec .crcInit s ∧
    step (s.present [0x32#8]) = exec .rxTick s ∧
    step (s.present [0x33#8]) = exec .rxAbort s ∧
    (∀ b : Byte, step (s.present [0x11#8, b]) = exec (.crcByte b) s ∧
      step (s.present [0x40#8, b]) = exec (.rd b) s) ∧
    (∀ h1 h0 : Byte, step (s.present [0x34#8, h1, h0]) =
      exec (.rxByte (BitVec.ofNat 16 (h1.toNat * 2 ^ 8 + h0.toNat))) s) ∧
    (∀ w3 w2 w1 w0 : Byte, step (s.present [0x30#8, w3, w2, w1, w0]) =
      exec (.rxStart (BitVec.ofNat 32
        (w3.toNat * 2 ^ 24 + w2.toNat * 2 ^ 16 + w1.toNat * 2 ^ 8 + w0.toNat))) s) ∧
    ∀ (n : Byte) (raw : List Byte), raw.length = n.toNat → n.toNat ≤ s.cfg.maxFrame →
      step (s.present (0x20#8 :: n :: raw)) = exec (.fpParse raw) s ∧
      step (s.present (0x31#8 :: n :: raw)) = exec (.rxFrame raw) s

/-- R50, R51: decoding stops at the first failure, in the rule's order, and a failure changes no state. -/
def Obligations.DecodingStopsAtTheFirstFailure : Prop :=
  ∀ s : State, s.cfg.wf = true →
    step (s.present []) = onlyAnswers s .errFormat 0#32 ∧
    ∀ (op : Byte) (args : List Byte),
      let fits : Bool :=
        if op ∈ [0x10#8, 0x32#8, 0x33#8] then decide (args.length = 0)
        else if op ∈ [0x11#8, 0x40#8] then decide (args.length = 1)
        else if op = 0x34#8 then decide (args.length = 2)
        else if op = 0x30#8 then decide (args.length = 4)
        else match args with
          | [] => false
          | n :: raw => decide (raw.length = n.toNat)
      let legal : Prop := op ∈ [0x10#8, 0x11#8, 0x20#8, 0x30#8, 0x31#8, 0x32#8, 0x33#8, 0x34#8, 0x40#8]
      let tooLong : Prop := op ∈ [0x20#8, 0x31#8] ∧ s.cfg.maxFrame < (args.headD 0#8).toNat
      (¬ legal → step (s.present (op :: args)) = onlyAnswers s .errOp 0#32) ∧
      (legal → fits = false → step (s.present (op :: args)) = onlyAnswers s .errFormat 0#32) ∧
      (legal → fits = true → tooLong → step (s.present (op :: args)) = onlyAnswers s .errLen 0#32) ∧
      (legal → fits = true → ¬ tooLong →
        ∃ i, i.isCommand = true ∧ step (s.present (op :: args)) = exec i s)

/-- R150: a response code of 0x80 or more means a refused command: datum 0, and no state changed. -/
def Obligations.RefusedCommandsChangeNothing : Prop :=
  ∀ (s t : State) (bytes : List Byte) (r : Response), step (s.present bytes) = .next t → t.response = some r →
    0x80 ≤ r.code.byte.toNat → r.data = 0#32 ∧ t = { s with response := some r }

/-- R45, R164: every command of any bytes, in any state, is answered, leaves the rest of the port and the parameters
alone, and no step faults. -/
def Obligations.EveryCommandIsAnswered : Prop :=
  ∀ (s : State) (bytes : List Byte), s.cfg.wf = true →
    ∃ (t : State) (r : Response), step (s.present bytes) = .next t ∧ t.response = some r ∧ t.port = s.port ∧
      t.cfg = s.cfg

/-- From R160, R161: reset gives every element its reset value, the parameters excepted; with nothing at the port the
block waits, unchanged, which is the model's reading of R161 (assumption log 7); and its first command may be any. What
becomes of the port and of the response on reset is the model's choice (assumption log 5), so nothing is said of it
here. -/
def Obligations.ResetEventAndWaiting : Prop :=
  ∀ s : State, s.cfg.wf = true →
    (∀ rest, s.port = .reset :: rest → ∃ p r, step s = .next
      { s with crc := 0x1D0F#16, st := .off, outcome := .none, expValid := false, expTotal := 0#8, slots := [],
               timer := 0#32, tmo := 0#32, malf := false, stale := false, out := [], port := p, response := r }) ∧
    (s.port = [] → step s = .next s) ∧
    ∀ bytes, ∃ t r, step ((State.resetOf s.cfg).present bytes) = .next t ∧ t.response = some r

/-- R28: the reset values, under every parameter set. -/
def Obligations.ResetValues : Prop :=
  ∀ cfg : Config,
    let s := State.resetOf cfg
    s.crc = 0x1D0F#16 ∧ s.st = .off ∧ s.outcome = .none ∧ s.expValid = false ∧ s.expTotal = 0#8 ∧
    (∀ i, s.slotValid i = false) ∧ s.occ = 0 ∧ s.timer = 0#32 ∧ s.tmo = 0#32 ∧ s.malf = false ∧ s.stale = false ∧
    s.outLen = 0#16 ∧ s.out = [] ∧ s.status = 0#32

/-- R6 with 93_implementation_defined.md U10 (`refuse`): a parameter set that is not well formed has no rules. -/
def Obligations.IllFormedParametersAreRefused : Prop :=
  ∀ s : State, s.cfg.wf = false → step s = .refused .illFormedParameters

/-! ### Encodings -/

/-- R46 to R48, R53, R54, R64, R65: decoding the encoding of a well-formed instruction gives it back: the nine commands
through the command decoder, the two wire formats through the Frame Parser. -/
def Obligations.DecodeOfEncode : Prop :=
  ∀ (cfg : Config) (i : Instr), cfg.wf = true → i.wf cfg = true →
    (i.isCommand = true → decode cfg (encode cfg i) = .ok i) ∧
    (i.isCommand = false → decodeFrame cfg (encode cfg i) = some i ∧ (encode cfg i).length ≤ cfg.maxFrame)

/-- R64: a command has no alternative encoding: what decodes is the encoding of what it decodes to, and that is a
well-formed command. -/
def Obligations.EncodeOfDecode : Prop :=
  ∀ (cfg : Config) (bytes : List Byte) (i : Instr), decode cfg bytes = .ok i →
    i.isCommand = true ∧ i.wf cfg = true ∧ encode cfg i = bytes

/-- R62, R47, and 95_test_vectors.md: words written out from the encoding tables decode to what they stand for. -/
def Obligations.WrittenOutWordsDecode : Prop :=
  decode Config.standard [0x10#8] = .ok .crcInit ∧
  decode Config.standard [0x11#8, 0x31#8] = .ok (.crcByte 0x31#8) ∧
  decode Config.standard [0x30#8, 0x00#8, 0x01#8, 0x02#8, 0x03#8] = .ok (.rxStart 0x00010203#32) ∧
  decode Config.standard [0x31#8, 0x04#8, 0x30#8, 0x31#8, 0x7A#8, 0x7A#8] =
    .ok (.rxFrame [0x30#8, 0x31#8, 0x7A#8, 0x7A#8]) ∧
  decode Config.standard [0x34#8, 0x01#8, 0x3E#8] = .ok (.rxByte 0x013E#16) ∧
  decode Config.standard [0x40#8, 0x06#8] = .ok (.rd 6#8) ∧
  decodeFrame Config.standard [0x3C#8, 0x4D#8, 0x41#8, 0x52#8, 0x4B#8, 0x3E#8, 0x46#8, 0x46#8, 0x30#8, 0x37#8, 0x78#8] =
    some (.frameF0 0xFF#8 0x07#8 [0x78#8]) ∧
  decodeFrame Config.standard [0x37#8, 0x46#8, 0x70#8] = some (.frameFN 0x7F#8 [0x70#8])

/-! ### Whole-machine rules -/

/-- R29, under R6: the invariants hold right after reset, for every well-formed parameter set. -/
def Obligations.InvariantsHoldAtReset : Prop := ∀ cfg : Config, cfg.wf = true → (State.resetOf cfg).Inv

/-- R29: every step from a state that meets the invariants gives one that meets them. -/
def Obligations.EveryStepKeepsTheInvariants : Prop := ∀ s t : State, s.Inv → step s = .next t → t.Inv

/-- The complete transition table of the control state, from R95. The `frameF0` and `frameFN` arms, which R95's table does
not list, are the model's choice (assumption log 6), as is what a frame above `MAX_FRAME` does when `exec` is asked
directly (assumption log 12). -/
def Obligations.TransitionTableIsComplete : Prop :=
  ∀ s : State, s.cfg.wf = true →
    (∀ rest t, s.port = .reset :: rest → step s = .next t → t.st = .off) ∧
    (∀ bytes e t, decode s.cfg bytes = .error e → step (s.present bytes) = .next t → t.st = s.st) ∧
    ∀ i t, exec i s = .next t →
      let acceptedTo := fun (count : Option Byte) (index : Byte) (slice : List Byte) =>
        if (s.collect count index slice).completionTest then RxState.complete else RxState.collecting
      match i with
      | .rxStart _ => t.st = .idle
      | .rxAbort => t.st = .off
      | .rxFrame raw =>
        match s.cycleActive, parseFrame s.cfg raw with
        | true, some p => t.st = acceptedTo p.count p.index (raw.drop p.off)
        | _, _ => t.st = s.st
      | .frameF0 c k slice => t.st = if s.cycleActive then acceptedTo (some c) k slice else s.st
      | .frameFN k slice => t.st = if s.cycleActive then acceptedTo none k slice else s.st
      | .rxTick =>
        t.st = if (s.st = .collecting ∨ s.st = .idle ∧ s.cfg.idleTimeoutEn = true) ∧
            s.tmo.toNat < min (s.timer.toNat + 1) 0xFFFFFFFF then .timedOut else s.st
      | .crcInit | .crcByte _ | .fpParse _ | .rd _ | .rxByte _ => t.st = s.st

/-- R11: of the presented commands only CRC.INIT and CRC.BYTE write `crc`, and of the instructions only CRC.BYTE and RD 6
read it (the statement exempts CRC.INIT as well); reset, which writes `crc` too, is no presented command. -/
def Obligations.CrcBelongsToTheChecksumEngine : Prop :=
  (∀ (s t : State) (bytes : List Byte), step (s.present bytes) = .next t →
    (∀ i, decode s.cfg bytes = .ok i → isCrcCommand i = false) → t.crc = s.crc) ∧
  ∀ (s t : State) (i : Instr) (c : Word16), isCrcCommand i = false → i ≠ .rd 6#8 → exec i s = .next t →
    exec i { s with crc := c } = .next { t with crc := c }

/-- From R21: `malf` and `stale` are sticky: only reset, RX.START and RX.ABORT clear them; `malf` is newly set exactly by a
malformed frame in an active cycle, `stale` exactly by a stale-transfer reset (R104); and they influence nothing but
themselves and a response that shows STATUS. That `frameF0` is an instruction that can set `stale` is the model's choice
(assumption log 6), as is what a frame above `MAX_FRAME` does when `exec` is asked directly (assumption log 12). -/
def Obligations.FlagsAreStickyAndInert : Prop :=
  ∀ (s t : State) (i : Instr), exec i s = .next t →
    (i ≠ .rxAbort → (∀ d, i ≠ .rxStart d) →
      (s.malf = true → t.malf = true) ∧ (s.stale = true → t.stale = true) ∧
      (s.malf = false → (t.malf = true ↔
        s.cycleActive = true ∧ ∃ raw, i = .rxFrame raw ∧ parseFrame s.cfg raw = none)) ∧
      (s.stale = false → s.slots.wf → (t.stale = true ↔
        s.cycleActive = true ∧ ∃ c k slice,
          (i = .frameF0 c k slice ∨ ∃ raw, i = .rxFrame raw ∧ decodeFrame s.cfg raw = some (.frameF0 c k slice)) ∧
          conflicts s (some c) (match s.cfg.staleOrder with
            | .checkThenRecord => s.occ
            | .recordThenCheck => filled s.slots k) = true))) ∧
    ((i = .rxAbort ∨ ∃ d, i = .rxStart d) → t.malf = false ∧ t.stale = false) ∧
    ∀ a b, ∃ u, exec i { s with malf := a, stale := b } = .next u ∧
      { u with malf := t.malf, stale := t.stale, response := t.response } = t ∧
      (u.response = t.response ∨
        ∃ code, u.response = some ⟨code, u.status⟩ ∧ t.response = some ⟨code, t.status⟩)

/-- R27: no command but a frame's acceptance sees a slot's contents: two states that differ only in them, with
equal occupancy, answer alike and stay alike. -/
def Obligations.SlotContentsAreHidden : Prop :=
  ∀ (s t : State) (m : SlotMemory) (i : Instr), m.length = s.slots.length →
    (∀ raw, i ≠ .rxFrame raw) → i.isCommand = true → exec i s = .next t →
    ∃ u, exec i { s with slots := m } = .next u ∧ u.response = t.response ∧ { u with slots := t.slots } = t

/-- R18: the occupancy is the number of valid slots, 0 to 256. -/
def Obligations.OccupancyCountsTheValidSlots : Prop :=
  ∀ s : State, s.slots.wf →
    s.occ = ((List.range 256).filter (fun i => s.slotValid (BitVec.ofNat 8 i))).length ∧ s.occ ≤ 256

/-- R39: no read has a side effect and every read is idempotent, and so are CRC.INIT, RX.START and RX.ABORT repeated. -/
def Obligations.ReadsAndStartsAreIdempotent : Prop :=
  ∀ (s t : State) (i : Instr), exec i s = .next t →
    ((∃ r, i = .rd r) ∨ (∃ k, i = .rxByte k) ∨ (∃ raw, i = .fpParse raw) → t = { s with response := t.response }) ∧
    ((∃ r, i = .rd r) ∨ (∃ k, i = .rxByte k) ∨ (∃ raw, i = .fpParse raw) ∨ i = .crcInit ∨ i = .rxAbort ∨
      (∃ T, i = .rxStart T) → exec i t = .next t)

/-- R5: no step writes the parameter set, and no step reads `TICK_PERIOD` or `HEX_UPPER` (R58, U16). -/
def Obligations.ParametersAreNotRunTimeWritable : Prop :=
  ∀ s t : State, step s = .next t →
    t.cfg = s.cfg ∧
    ∀ (upper : Bool) (period : Nat),
      step { s with cfg := { s.cfg with hexUpper := upper, tickPeriod := period } } =
        .next { t with cfg := { s.cfg with hexUpper := upper, tickPeriod := period } }

/-- R22, R29 item 5: what a failed or unfinished cycle leaves readable: nothing. -/
def Obligations.NoPartialPayloadIsReadable : Prop :=
  ∀ (s : State), s.Inv → s.outcome ≠ .success →
    s.out = [] ∧ ∀ i, exec (.rxByte i) s = onlyAnswers s .errState 0#32

/-! ### Transfers of the reference packer -/

/-- R131, R133, R136: a packed transfer: 1 to 255 frames, each at most `M` bytes and all but the last exactly `M`; frame 0
alone is marker-bearing, declares the number of frames and has index 0; frame `k` has index `k`; and the slices in order
are the payload and its checksum. -/
def Obligations.PackedTransferIsWellFormed : Prop :=
  ∀ (cfg : Config) (m : Nat) (p : List Byte), cfg.wf = true → cfg.markerLen + 4 ≤ m → m ≤ 255 →
    (pack cfg m p = .error .frameCountOverflow ↔ 255 * (m - 2) < cfg.markerLen + 6 + p.length) ∧
    ∀ fs, pack cfg m p = .ok fs →
      1 ≤ fs.length ∧ fs.length ≤ 255 ∧
      (∀ k f, fs[k]? = some f → f.length ≤ m ∧ (k + 1 < fs.length → f.length = m) ∧
        (k + 1 = fs.length → 3 ≤ f.length ∧
          f.length = cfg.markerLen + 6 + p.length - (fs.length - 1) * (m - 2) + 2)) ∧
      ∃ slices : List (List Byte), slices.length = fs.length ∧
        slices.flatten = p ++ toHex4 cfg.hexUpper (checksum p) ∧
        ∀ k f sl, fs[k]? = some f → slices[k]? = some sl →
          decodeFrame cfg f =
            if k = 0 then some (.frameF0 (BitVec.ofNat 8 fs.length) 0#8 sl) else some (.frameFN (BitVec.ofNat 8 k) sl)

/-- R137: presenting a packed transfer in order recovers the payload, from any state. -/
def Obligations.PackedTransferRoundTrip : Prop :=
  ∀ (s : State) (m : Nat) (p : List Byte) (fs : List (List Byte)) (t : Word32), s.cfg.wf = true →
    s.cfg.markerLen + 4 ≤ m → m ≤ s.cfg.maxFrame → pack s.cfg m p = .ok fs →
    ∃ u, runAll (.rxStart t :: fs.map .rxFrame) s = some u ∧ u.st = .complete ∧ u.outcome = .success ∧ u.out = p

/-- R112: order independence: any order, any duplicates, ticks within the timeout; the RX.FRAME that first completes the
set of frames ends the cycle with the payload, and no command before it does. -/
def Obligations.ArrivalOrderIsIrrelevant : Prop :=
  ∀ (s : State) (m : Nat) (p : List Byte) (fs : List (List Byte)) (t : Word32) (before : List Instr) (last : List Byte),
    s.cfg.wf = true → s.cfg.markerLen + 4 ≤ m → m ≤ s.cfg.maxFrame → pack s.cfg m p = .ok fs →
    (∀ i ∈ before, i = .rxTick ∨ ∃ f ∈ fs, i = .rxFrame f) → last ∈ fs →
    (∀ f ∈ fs, .rxFrame f ∈ before ∨ f = last) → .rxFrame last ∉ before →
    ticksBounded t.toNat 0 before = true →
    ∃ u v, runAll (.rxStart t :: before) s = some u ∧ (u.st = .idle ∨ u.st = .collecting) ∧
      exec (.rxFrame last) u = .next v ∧ v.st = .complete ∧ v.outcome = .success ∧ v.out = p

/-- R114 (b): one flipped bit in the payload part of what was reassembled is always a mismatch. -/
def Obligations.OneFlippedPayloadBitIsAMismatch : Prop :=
  ∀ (s : State) (p : List Byte) (upper : Bool) (k : Nat) (j : Fin 8) (h : k < p.length),
    s.slots.concat = p.set k (p[k] ^^^ (1#8 <<< j.val)) ++ toHex4 upper (checksum p) →
    s.finish = { s with slots := [], out := [], outcome := .checksumMismatch, st := .complete }
end

