-- ==== Sys2Proof/Laws/Codec.lean ====
section
/-! SUPPORT. Small laws of the hexadecimal codec, the decoders and the checksum functions. -/

namespace Sys2Proof

/-- R58: a rendered digit reads back as its value. -/
theorem hexVal_hexDigit (upper : Bool) (d : BitVec 4) : hexVal (hexDigit upper d) = some d.toNat := by
  revert upper d
  decide

/-- R55: a digit's value is below 16. -/
theorem hexVal_lt {c : Byte} {v : Nat} (h : hexVal c = some v) : v < 16 := by
  unfold hexVal at h
  split at h
  · cases h; omega
  · split at h
    · cases h; omega
    · split at h
      · cases h; omega
      · cases h

/-- R56: a 2-character field has a value exactly when both characters are digits. -/
theorem hexByte_eq_some_iff (c1 c0 v : Byte) :
    hexByte c1 c0 = some v ↔ ∃ a b, hexVal c1 = some a ∧ hexVal c0 = some b ∧ v = BitVec.ofNat 8 (16 * a + b) := by
  unfold hexByte
  cases h1 : hexVal c1 <;> cases h0 : hexVal c0 <;> simp [eq_comm]

theorem hexByte_isSome_iff (c1 c0 : Byte) :
    (hexByte c1 c0).isSome = true ↔ (hexVal c1).isSome = true ∧ (hexVal c0).isSome = true := by
  unfold hexByte
  cases hexVal c1 <;> cases hexVal c0 <;> simp

/-! ### The command decoder -/

theorem formZ_eq_ok_iff (op : Byte) (args : List Byte) (i j : Instr) :
    formZ op args i = .ok j ↔ args = [] ∧ j = i := by
  unfold formZ
  split <;> simp_all [eq_comm]

theorem formB_eq_ok_iff (op : Byte) (args : List Byte) (mk : Byte → Instr) (j : Instr) :
    formB op args mk = .ok j ↔ ∃ b, args = [b] ∧ j = mk b := by
  unfold formB
  split <;> simp_all [eq_comm]

theorem formH_eq_ok_iff (op : Byte) (args : List Byte) (mk : Word16 → Instr) (j : Instr) :
    formH op args mk = .ok j ↔ ∃ h1 h0, args = [h1, h0] ∧ j = mk (half h1 h0) := by
  unfold formH
  split
  · rename_i h1 h0
    constructor
    · intro h
      cases h
      exact ⟨h1, h0, rfl, rfl⟩
    · rintro ⟨a, b, hab, rfl⟩
      cases hab
      rfl
  · rename_i h
    constructor
    · intro hc
      cases hc
    · rintro ⟨a, b, rfl, -⟩
      exact absurd rfl (h a b)

theorem formW_eq_ok_iff (op : Byte) (args : List Byte) (mk : Word32 → Instr) (j : Instr) :
    formW op args mk = .ok j ↔
      ∃ w3 w2 w1 w0, args = [w3, w2, w1, w0] ∧ j = mk (word w3 w2 w1 w0) := by
  unfold formW
  split
  · rename_i w3 w2 w1 w0
    constructor
    · intro h
      cases h
      exact ⟨w3, w2, w1, w0, rfl, rfl⟩
    · rintro ⟨a, b, c, d, habcd, rfl⟩
      cases habcd
      rfl
  · rename_i h
    constructor
    · intro hc
      cases hc
    · rintro ⟨a, b, c, d, rfl, -⟩
      exact absurd rfl (h a b c d)

theorem formL_eq_ok_iff (cfg : Config) (op : Byte) (args : List Byte) (mk : List Byte → Instr) (j : Instr) :
    formL cfg op args mk = .ok j ↔
      ∃ n raw, args = n :: raw ∧ raw.length = n.toNat ∧ n.toNat ≤ cfg.maxFrame ∧ j = mk raw := by
  unfold formL
  cases args with
  | nil => simp
  | cons n raw =>
    by_cases h1 : raw.length = n.toNat
    · by_cases h2 : n.toNat ≤ cfg.maxFrame
      · have h3 : ¬ n.toNat > cfg.maxFrame := by omega
        simp only [h1, ne_eq, not_true, if_false, h3]
        constructor
        · intro h
          cases h
          exact ⟨n, raw, rfl, h1, h2, rfl⟩
        · rintro ⟨m, r, hmr, -, -, rfl⟩
          cases hmr
          rfl
      · have h3 : n.toNat > cfg.maxFrame := by omega
        simp only [h1, ne_eq, not_true, if_false, h3, if_true]
        constructor
        · intro h
          cases h
        · rintro ⟨m, r, hmr, -, hm, -⟩
          cases hmr
          exact absurd hm h2
    · simp only [ne_eq, h1, not_false_iff, if_true]
      constructor
      · intro h
        cases h
      · rintro ⟨m, r, hmr, hl, -, -⟩
        cases hmr
        exact absurd hl h1

/-- R51: what a command that decodes looks like, one case per opcode. -/
theorem decode_eq_ok_cases {cfg : Config} {bytes : List Byte} {i : Instr} (h : decode cfg bytes = .ok i) :
    (bytes = [0x10#8] ∧ i = .crcInit) ∨
    (∃ b, bytes = [0x11#8, b] ∧ i = .crcByte b) ∨
    (∃ n raw, bytes = 0x20#8 :: n :: raw ∧ raw.length = n.toNat ∧ n.toNat ≤ cfg.maxFrame ∧ i = .fpParse raw) ∨
    (∃ w3 w2 w1 w0, bytes = [0x30#8, w3, w2, w1, w0] ∧ i = .rxStart (word w3 w2 w1 w0)) ∨
    (∃ n raw, bytes = 0x31#8 :: n :: raw ∧ raw.length = n.toNat ∧ n.toNat ≤ cfg.maxFrame ∧ i = .rxFrame raw) ∨
    (bytes = [0x32#8] ∧ i = .rxTick) ∨
    (bytes = [0x33#8] ∧ i = .rxAbort) ∨
    (∃ h1 h0, bytes = [0x34#8, h1, h0] ∧ i = .rxByte (half h1 h0)) ∨
    (∃ r, bytes = [0x40#8, r] ∧ i = .rd r) := by
  cases bytes with
  | nil => cases h
  | cons op args =>
    simp only [decode] at h
    split at h
    · rename_i e
      obtain ⟨rfl, rfl⟩ := (formZ_eq_ok_iff _ _ _ _).mp h
      exact .inl ⟨by rw [e], rfl⟩
    · split at h
      · rename_i e
        obtain ⟨b, rfl, rfl⟩ := (formB_eq_ok_iff _ _ _ _).mp h
        exact .inr (.inl ⟨b, by rw [e], rfl⟩)
      · split at h
        · rename_i e
          obtain ⟨n, raw, rfl, h1, h2, rfl⟩ := (formL_eq_ok_iff _ _ _ _ _).mp h
          exact .inr (.inr (.inl ⟨n, raw, by rw [e], h1, h2, rfl⟩))
        · split at h
          · rename_i e
            obtain ⟨w3, w2, w1, w0, rfl, rfl⟩ := (formW_eq_ok_iff _ _ _ _).mp h
            exact .inr (.inr (.inr (.inl ⟨w3, w2, w1, w0, by rw [e], rfl⟩)))
          · split at h
            · rename_i e
              obtain ⟨n, raw, rfl, h1, h2, rfl⟩ := (formL_eq_ok_iff _ _ _ _ _).mp h
              exact .inr (.inr (.inr (.inr (.inl ⟨n, raw, by rw [e], h1, h2, rfl⟩))))
            · split at h
              · rename_i e
                obtain ⟨rfl, rfl⟩ := (formZ_eq_ok_iff _ _ _ _).mp h
                exact .inr (.inr (.inr (.inr (.inr (.inl ⟨by rw [e], rfl⟩)))))
              · split at h
                · rename_i e
                  obtain ⟨rfl, rfl⟩ := (formZ_eq_ok_iff _ _ _ _).mp h
                  exact .inr (.inr (.inr (.inr (.inr (.inr (.inl ⟨by rw [e], rfl⟩))))))
                · split at h
                  · rename_i e
                    obtain ⟨h1, h0, rfl, rfl⟩ := (formH_eq_ok_iff _ _ _ _).mp h
                    exact .inr (.inr (.inr (.inr (.inr (.inr (.inr (.inl ⟨h1, h0, by rw [e], rfl⟩)))))))
                  · split at h
                    · rename_i e
                      obtain ⟨r, rfl, rfl⟩ := (formB_eq_ok_iff _ _ _ _).mp h
                      exact .inr (.inr (.inr (.inr (.inr (.inr (.inr (.inr ⟨r, by rw [e], rfl⟩)))))))
                    · cases h

/-! ### The Frame Parser -/

/-- R85: a frame that begins with the marker is read as F0: count and index behind the marker. -/
theorem parseFrame_eq_some_of_marked {cfg : Config} {raw : List Byte} (h : raw.take cfg.markerLen = cfg.marker)
    (p : ParsedFrame) :
    parseFrame cfg raw = some p ↔ ∃ c1 c0 i1 i0 rest c i, raw.drop cfg.markerLen = c1 :: c0 :: i1 :: i0 :: rest ∧
      hexByte c1 c0 = some c ∧ hexByte i1 i0 = some i ∧ p = ⟨some c, i, cfg.markerLen + 4⟩ := by
  unfold parseFrame
  rw [if_pos h]
  rcases raw.drop cfg.markerLen with _ | ⟨c1, _ | ⟨c0, _ | ⟨i1, _ | ⟨i0, rest⟩⟩⟩⟩ <;> simp
  cases hexByte c1 c0 <;> cases hexByte i1 i0 <;> simp [eq_comm]

/-- R85: any other frame is read as FN: the index in front. -/
theorem parseFrame_eq_some_of_plain {cfg : Config} {raw : List Byte} (h : raw.take cfg.markerLen ≠ cfg.marker)
    (p : ParsedFrame) :
    parseFrame cfg raw = some p ↔
      ∃ i1 i0 rest i, raw = i1 :: i0 :: rest ∧ hexByte i1 i0 = some i ∧ p = ⟨none, i, 2⟩ := by
  unfold parseFrame
  rw [if_neg h]
  rcases raw with _ | ⟨i1, _ | ⟨i0, rest⟩⟩ <;> simp
  cases hexByte i1 i0 <;> simp [eq_comm]

/-- R85, R86: the slice starts at byte 2 or behind marker, count and index, inside the frame. -/
theorem parseFrame_off {cfg : Config} {raw : List Byte} {p : ParsedFrame} (h : parseFrame cfg raw = some p) :
    (p.off = 2 ∨ p.off = cfg.markerLen + 4) ∧ p.off ≤ raw.length := by
  unfold parseFrame at h
  split at h
  · split at h
    · rename_i c1 c0 i1 i0 rest hd
      split at h
      · cases h
        refine ⟨.inr rfl, ?_⟩
        have := congrArg List.length hd
        simp only [List.length_drop, List.length_cons] at this ⊢
        omega
      · cases h
    · cases h
  · split at h
    · rename_i i1 i0 rest
      split at h
      · cases h
        exact ⟨.inl rfl, by simp⟩
      · cases h
    · cases h

/-- R23, R85: of the parameters the Frame Parser reads the marker only. -/
theorem parseFrame_marker_only (cfg cfg' : Config) (raw : List Byte) (h : cfg.marker = cfg'.marker) :
    parseFrame cfg raw = parseFrame cfg' raw := by
  unfold parseFrame Config.markerLen
  rw [h]

namespace Machine

/-- R79: a shift step is linear. -/
theorem crcShift_xor (a b : Word16) : crcShift (a ^^^ b) = crcShift a ^^^ crcShift b := by
  unfold crcShift
  have hm : (a ^^^ b).msb = (a.msb ^^ b.msb) := BitVec.msb_xor
  have hs : (a ^^^ b) <<< 1 = a <<< 1 ^^^ b <<< 1 := by
    ext i hi
    simp only [BitVec.getElem_xor, BitVec.getElem_shiftLeft]
    by_cases h : i < 1 <;> simp [h]
  rw [hm, hs]
  cases a.msb <;> cases b.msb <;> simp only [Bool.xor_false, Bool.xor_true, Bool.not_true, Bool.not_false,
    if_true, if_false, Bool.false_eq_true]
  · rw [BitVec.xor_assoc]
  · rw [BitVec.xor_assoc, BitVec.xor_assoc, BitVec.xor_comm Config.poly]
  · rw [BitVec.xor_assoc, BitVec.xor_comm Config.poly, BitVec.xor_assoc, BitVec.xor_self, BitVec.xor_zero]

/-- R73: so are any number of them. -/
theorem crcShifts_xor (k : Nat) (a b : Word16) : crcShifts k (a ^^^ b) = crcShifts k a ^^^ crcShifts k b := by
  induction k generalizing a b with
  | zero => rfl
  | succ k ih => simp only [crcShifts, crcShift_xor, ih]

@[simp] theorem crcFold_nil (c : Word16) : crcFold c [] = c := rfl

@[simp] theorem crcFold_cons (c : Word16) (b : Byte) (s : List Byte) : crcFold c (b :: s) = crcFold (upd c b) s := rfl

theorem crcFold_append (c : Word16) (s t : List Byte) : crcFold c (s ++ t) = crcFold (crcFold c s) t :=
  List.foldl_append

end Machine

end Sys2Proof
end

