-- ==== Sys2Proof/Laws/Slots.lean ====
section
/-! SUPPORT. The laws of the slot store: reading after writing, the canonical form and what it gives. -/

namespace Sys2Proof.Machine.SlotMemory

@[simp] theorem read_nil (i : Byte) : SlotMemory.read [] i = none := rfl

@[simp] theorem concat_nil : SlotMemory.concat [] = [] := rfl

theorem read_cons (j : Byte) (t : List Byte) (m : SlotMemory) (i : Byte) :
    SlotMemory.read ((j, t) :: m) i = if i = j then some t else SlotMemory.read m i := rfl

/-- R32: a slot just written reads as what was written. -/
theorem read_write_same (m : SlotMemory) (i : Byte) (t : List Byte) :
    (SlotMemory.write m i t).read i = some t := by
  induction m with
  | nil => simp [write, read]
  | cons e m ih =>
    obtain ⟨j, u⟩ := e
    simp only [write]
    split
    · simp [read]
    · split
      · simp [read]
      · rename_i h
        simp [read_cons, h, ih]

/-- R32: writing one slot leaves every other slot alone. -/
theorem read_write_other (m : SlotMemory) (i j : Byte) (t : List Byte) (h : j ≠ i) :
    (SlotMemory.write m i t).read j = m.read j := by
  induction m with
  | nil => simp [write, read, h]
  | cons e m ih =>
    obtain ⟨k, u⟩ := e
    simp only [write]
    split
    · simp [read_cons, h]
    · split
      · rename_i hk
        subst hk
        simp [read_cons, h]
      · simp [read_cons, ih]

theorem read_write (m : SlotMemory) (i j : Byte) (t : List Byte) :
    (SlotMemory.write m i t).read j = if j = i then some t else m.read j := by
  split
  · rename_i h
    rw [h, read_write_same]
  · rename_i h
    rw [read_write_other m i j t h]

/-- Every index of a written store is the written one or was there before. -/
theorem mem_write {m : SlotMemory} {i : Byte} {t : List Byte} {e : Byte × List Byte}
    (h : e ∈ SlotMemory.write m i t) : e = (i, t) ∨ e ∈ m := by
  induction m with
  | nil => simpa [write] using h
  | cons x m ih =>
    obtain ⟨j, u⟩ := x
    simp only [write] at h
    split at h
    · simpa using h
    · split at h
      · rcases List.mem_cons.mp h with h | h
        · exact .inl h
        · exact .inr (List.mem_cons_of_mem _ h)
      · rcases List.mem_cons.mp h with h | h
        · exact .inr (h ▸ List.mem_cons_self)
        · exact (ih h).imp_right (List.mem_cons_of_mem _)

theorem wf_nil : SlotMemory.wf [] := List.Pairwise.nil

/-- Every write keeps the canonical form. -/
theorem write_wf {m : SlotMemory} (h : m.wf) (i : Byte) (t : List Byte) : (SlotMemory.write m i t).wf := by
  induction m with
  | nil => exact List.pairwise_singleton _ _
  | cons e m ih =>
    obtain ⟨j, u⟩ := e
    obtain ⟨hj, hm⟩ := List.pairwise_cons.mp h
    simp only [write]
    split
    · rename_i hlt
      refine List.pairwise_cons.mpr ⟨fun a ha => ?_, h⟩
      rcases List.mem_cons.mp ha with ha | ha
      · simpa [ha] using hlt
      · have := hj a ha
        simp only at this ⊢
        omega
    · split
      · rename_i hij
        subst hij
        exact List.pairwise_cons.mpr ⟨hj, hm⟩
      · rename_i hlt hne
        refine List.pairwise_cons.mpr ⟨fun a ha => ?_, ih hm⟩
        rcases mem_write ha with ha | ha
        · subst ha
          have : i.toNat ≠ j.toNat := fun hc => hne (BitVec.eq_of_toNat_eq hc)
          simp only
          omega
        · exact hj a ha

/-- In the canonical form an index below every listed one is not there. -/
theorem read_eq_none_of_lt {m : SlotMemory} {i : Byte} (h : ∀ e ∈ m, i.toNat < e.1.toNat) : m.read i = none := by
  induction m with
  | nil => rfl
  | cons e m ih =>
    obtain ⟨j, u⟩ := e
    have hij : i ≠ j := fun hc => by
      have := h (j, u) List.mem_cons_self
      simp [hc] at this
    simp [read_cons, hij, ih (fun e he => h e (List.mem_cons_of_mem _ he))]

/-- R100: the occupancy after a write: one more unless the index was filled. -/
theorem length_write {m : SlotMemory} (h : m.wf) (i : Byte) (t : List Byte) :
    (SlotMemory.write m i t).length = filled m i := by
  induction m with
  | nil => rfl
  | cons e m ih =>
    obtain ⟨j, u⟩ := e
    obtain ⟨hj, hm⟩ := List.pairwise_cons.mp h
    simp only [write]
    split
    · rename_i hlt
      have hr : SlotMemory.read ((j, u) :: m) i = none :=
        read_eq_none_of_lt (fun e he => by
          rcases List.mem_cons.mp he with he | he
          · simpa [he] using hlt
          · have := hj e he
            simp only at this
            omega)
      simp [filled, hr]
    · split
      · rename_i hij
        simp [filled, read_cons, hij]
      · rename_i hne
        have := ih hm
        simp only [filled] at this ⊢
        simp only [read_cons, hne, if_false, List.length_cons, this]
        split <;> rfl

theorem write_ne_nil (m : SlotMemory) (i : Byte) (t : List Byte) : SlotMemory.write m i t ≠ [] := by
  cases m with
  | nil => simp [write]
  | cons e m =>
    obtain ⟨j, u⟩ := e
    simp only [write]
    split
    · simp
    · split <;> simp

/-- A listed entry is what its index reads as. -/
theorem read_of_mem {m : SlotMemory} (h : m.wf) {e : Byte × List Byte} (he : e ∈ m) : m.read e.1 = some e.2 := by
  induction m with
  | nil => simp at he
  | cons x m ih =>
    obtain ⟨j, u⟩ := x
    obtain ⟨hj, hm⟩ := List.pairwise_cons.mp h
    rcases List.mem_cons.mp he with he | he
    · simp [he, read_cons]
    · have hlt := hj e he
      have hne : e.1 ≠ j := fun hc => by simp [hc] at hlt
      simp [read_cons, hne, ih hm he]

/-- What reads as a slice is listed. -/
theorem mem_of_read {m : SlotMemory} {i : Byte} {t : List Byte} (h : m.read i = some t) : (i, t) ∈ m := by
  induction m with
  | nil => simp at h
  | cons x m ih =>
    obtain ⟨j, u⟩ := x
    rw [read_cons] at h
    split at h
    · rename_i hij
      simp_all
    · exact List.mem_cons_of_mem _ (ih h)

/-- Two canonical stores that read alike are equal. -/
theorem ext_of_read {m n : SlotMemory} (hm : m.wf) (hn : n.wf) (h : ∀ i, m.read i = n.read i) : m = n := by
  have perm : m.Perm n := by
    refine (List.perm_ext_iff_of_nodup ?_ ?_).mpr (fun e => ?_)
    · exact hm.imp (fun {a b} hab hc => by simp [hc] at hab)
    · exact hn.imp (fun {a b} hab hc => by simp [hc] at hab)
    · exact ⟨fun he => mem_of_read (h e.1 ▸ read_of_mem hm he), fun he => mem_of_read ((h e.1).symm ▸ read_of_mem hn he)⟩
  exact perm.eq_of_pairwise (fun a b _ _ hab hba => absurd hab (Nat.lt_asymm hba)) hm hn

/-- R18, R113: at most 256 slots are occupied. -/
theorem length_le {m : SlotMemory} (h : m.wf) : m.length ≤ 256 := by
  have hnodup : (m.map (fun e => e.1.toNat)).Nodup :=
    (List.pairwise_map.mpr h).imp (fun {a b} hab => Nat.ne_of_lt hab)
  have hsub : (m.map (fun e => e.1.toNat)) ⊆ List.range 256 := by
    intro x hx
    obtain ⟨e, -, rfl⟩ := List.mem_map.mp hx
    exact List.mem_range.mpr e.1.isLt
  simpa using (hnodup.subperm hsub).length_le

/-- A bound on every slice bounds the concatenation (R22). -/
theorem length_concat_le {m : SlotMemory} {b : Nat} (h : ∀ e ∈ m, e.2.length ≤ b) :
    m.concat.length ≤ m.length * b := by
  induction m with
  | nil => simp [concat]
  | cons e m ih =>
    obtain ⟨j, u⟩ := e
    have h1 := h (j, u) List.mem_cons_self
    have h2 := ih (fun e he => h e (List.mem_cons_of_mem _ he))
    simp only [concat, List.length_append, List.length_cons, Nat.succ_mul]
    simp only at h1
    omega

end Sys2Proof.Machine.SlotMemory
end

