-- ==== Sys2Proof/Laws/State.lean ====
section
/-! SUPPORT. One lemma per field of State and update of it, true by rfl, so that no later proof unfolds an update. -/

namespace Sys2Proof.Machine

variable (s : State)

@[simp] theorem State.clearBuffer_cfg : s.clearBuffer.cfg = s.cfg := rfl
@[simp] theorem State.clearBuffer_crc : s.clearBuffer.crc = s.crc := rfl
@[simp] theorem State.clearBuffer_st : s.clearBuffer.st = s.st := rfl
@[simp] theorem State.clearBuffer_outcome : s.clearBuffer.outcome = s.outcome := rfl
@[simp] theorem State.clearBuffer_expValid : s.clearBuffer.expValid = s.expValid := rfl
@[simp] theorem State.clearBuffer_expTotal : s.clearBuffer.expTotal = s.expTotal := rfl
@[simp] theorem State.clearBuffer_slots : s.clearBuffer.slots = [] := rfl
@[simp] theorem State.clearBuffer_timer : s.clearBuffer.timer = s.timer := rfl
@[simp] theorem State.clearBuffer_tmo : s.clearBuffer.tmo = s.tmo := rfl
@[simp] theorem State.clearBuffer_malf : s.clearBuffer.malf = s.malf := rfl
@[simp] theorem State.clearBuffer_stale : s.clearBuffer.stale = s.stale := rfl
@[simp] theorem State.clearBuffer_out : s.clearBuffer.out = s.out := rfl
@[simp] theorem State.clearBuffer_port : s.clearBuffer.port = s.port := rfl
@[simp] theorem State.clearBuffer_response : s.clearBuffer.response = s.response := rfl

@[simp] theorem State.clearOut_cfg : s.clearOut.cfg = s.cfg := rfl
@[simp] theorem State.clearOut_crc : s.clearOut.crc = s.crc := rfl
@[simp] theorem State.clearOut_st : s.clearOut.st = s.st := rfl
@[simp] theorem State.clearOut_outcome : s.clearOut.outcome = s.outcome := rfl
@[simp] theorem State.clearOut_expValid : s.clearOut.expValid = s.expValid := rfl
@[simp] theorem State.clearOut_expTotal : s.clearOut.expTotal = s.expTotal := rfl
@[simp] theorem State.clearOut_slots : s.clearOut.slots = s.slots := rfl
@[simp] theorem State.clearOut_timer : s.clearOut.timer = s.timer := rfl
@[simp] theorem State.clearOut_tmo : s.clearOut.tmo = s.tmo := rfl
@[simp] theorem State.clearOut_malf : s.clearOut.malf = s.malf := rfl
@[simp] theorem State.clearOut_stale : s.clearOut.stale = s.stale := rfl
@[simp] theorem State.clearOut_out : s.clearOut.out = [] := rfl
@[simp] theorem State.clearOut_port : s.clearOut.port = s.port := rfl
@[simp] theorem State.clearOut_response : s.clearOut.response = s.response := rfl

@[simp] theorem State.recordSlice_cfg (i : Byte) (t : List Byte) : (s.recordSlice i t).cfg = s.cfg := rfl
@[simp] theorem State.recordSlice_crc (i : Byte) (t : List Byte) : (s.recordSlice i t).crc = s.crc := rfl
@[simp] theorem State.recordSlice_st (i : Byte) (t : List Byte) : (s.recordSlice i t).st = s.st := rfl
@[simp] theorem State.recordSlice_outcome (i : Byte) (t : List Byte) : (s.recordSlice i t).outcome = s.outcome := rfl
@[simp] theorem State.recordSlice_expValid (i : Byte) (t : List Byte) : (s.recordSlice i t).expValid = s.expValid := rfl
@[simp] theorem State.recordSlice_expTotal (i : Byte) (t : List Byte) : (s.recordSlice i t).expTotal = s.expTotal := rfl
@[simp] theorem State.recordSlice_slots (i : Byte) (t : List Byte) : (s.recordSlice i t).slots = s.slots.write i t := rfl
@[simp] theorem State.recordSlice_timer (i : Byte) (t : List Byte) : (s.recordSlice i t).timer = s.timer := rfl
@[simp] theorem State.recordSlice_tmo (i : Byte) (t : List Byte) : (s.recordSlice i t).tmo = s.tmo := rfl
@[simp] theorem State.recordSlice_malf (i : Byte) (t : List Byte) : (s.recordSlice i t).malf = s.malf := rfl
@[simp] theorem State.recordSlice_stale (i : Byte) (t : List Byte) : (s.recordSlice i t).stale = s.stale := rfl
@[simp] theorem State.recordSlice_out (i : Byte) (t : List Byte) : (s.recordSlice i t).out = s.out := rfl
@[simp] theorem State.recordSlice_port (i : Byte) (t : List Byte) : (s.recordSlice i t).port = s.port := rfl
@[simp] theorem State.recordSlice_response (i : Byte) (t : List Byte) : (s.recordSlice i t).response = s.response := rfl

@[simp] theorem State.eraseCycle_cfg (x : RxState) (t : Word32) : (s.eraseCycle x t).cfg = s.cfg := rfl
@[simp] theorem State.eraseCycle_crc (x : RxState) (t : Word32) : (s.eraseCycle x t).crc = s.crc := rfl
@[simp] theorem State.eraseCycle_st (x : RxState) (t : Word32) : (s.eraseCycle x t).st = x := rfl
@[simp] theorem State.eraseCycle_outcome (x : RxState) (t : Word32) : (s.eraseCycle x t).outcome = .none := rfl
@[simp] theorem State.eraseCycle_expValid (x : RxState) (t : Word32) : (s.eraseCycle x t).expValid = false := rfl
@[simp] theorem State.eraseCycle_expTotal (x : RxState) (t : Word32) : (s.eraseCycle x t).expTotal = 0#8 := rfl
@[simp] theorem State.eraseCycle_slots (x : RxState) (t : Word32) : (s.eraseCycle x t).slots = [] := rfl
@[simp] theorem State.eraseCycle_timer (x : RxState) (t : Word32) : (s.eraseCycle x t).timer = 0#32 := rfl
@[simp] theorem State.eraseCycle_tmo (x : RxState) (t : Word32) : (s.eraseCycle x t).tmo = t := rfl
@[simp] theorem State.eraseCycle_malf (x : RxState) (t : Word32) : (s.eraseCycle x t).malf = false := rfl
@[simp] theorem State.eraseCycle_stale (x : RxState) (t : Word32) : (s.eraseCycle x t).stale = false := rfl
@[simp] theorem State.eraseCycle_out (x : RxState) (t : Word32) : (s.eraseCycle x t).out = [] := rfl
@[simp] theorem State.eraseCycle_port (x : RxState) (t : Word32) : (s.eraseCycle x t).port = s.port := rfl
@[simp] theorem State.eraseCycle_response (x : RxState) (t : Word32) : (s.eraseCycle x t).response = s.response := rfl

@[simp] theorem State.timeOut_cfg : s.timeOut.cfg = s.cfg := rfl
@[simp] theorem State.timeOut_crc : s.timeOut.crc = s.crc := rfl
@[simp] theorem State.timeOut_st : s.timeOut.st = .timedOut := rfl
@[simp] theorem State.timeOut_outcome : s.timeOut.outcome = .timeout := rfl
@[simp] theorem State.timeOut_expValid : s.timeOut.expValid = s.expValid := rfl
@[simp] theorem State.timeOut_expTotal : s.timeOut.expTotal = s.expTotal := rfl
@[simp] theorem State.timeOut_slots : s.timeOut.slots = [] := rfl
@[simp] theorem State.timeOut_timer : s.timeOut.timer = s.timer := rfl
@[simp] theorem State.timeOut_tmo : s.timeOut.tmo = s.tmo := rfl
@[simp] theorem State.timeOut_malf : s.timeOut.malf = s.malf := rfl
@[simp] theorem State.timeOut_stale : s.timeOut.stale = s.stale := rfl
@[simp] theorem State.timeOut_out : s.timeOut.out = [] := rfl
@[simp] theorem State.timeOut_port : s.timeOut.port = s.port := rfl
@[simp] theorem State.timeOut_response : s.timeOut.response = s.response := rfl

@[simp] theorem State.applyReset_cfg : s.applyReset.cfg = s.cfg := rfl
@[simp] theorem State.applyReset_crc : s.applyReset.crc = Config.crcInit := rfl
@[simp] theorem State.applyReset_st : s.applyReset.st = .off := rfl
@[simp] theorem State.applyReset_outcome : s.applyReset.outcome = .none := rfl
@[simp] theorem State.applyReset_expValid : s.applyReset.expValid = false := rfl
@[simp] theorem State.applyReset_expTotal : s.applyReset.expTotal = 0#8 := rfl
@[simp] theorem State.applyReset_slots : s.applyReset.slots = [] := rfl
@[simp] theorem State.applyReset_timer : s.applyReset.timer = 0#32 := rfl
@[simp] theorem State.applyReset_tmo : s.applyReset.tmo = 0#32 := rfl
@[simp] theorem State.applyReset_malf : s.applyReset.malf = false := rfl
@[simp] theorem State.applyReset_stale : s.applyReset.stale = false := rfl
@[simp] theorem State.applyReset_out : s.applyReset.out = [] := rfl
@[simp] theorem State.applyReset_port : s.applyReset.port = s.port := rfl
@[simp] theorem State.applyReset_response : s.applyReset.response = none := rfl

@[simp] theorem State.resetOf_cfg (cfg : Config) : (State.resetOf cfg).cfg = cfg := rfl
@[simp] theorem State.resetOf_slots (cfg : Config) : (State.resetOf cfg).slots = [] := rfl
@[simp] theorem State.resetOf_st (cfg : Config) : (State.resetOf cfg).st = .off := rfl
@[simp] theorem State.present_cfg (b : List Byte) : (s.present b).cfg = s.cfg := rfl
@[simp] theorem State.present_port (b : List Byte) : (s.present b).port = .command b :: s.port := rfl

/-- Taking the presented command away again gives the state back. -/
@[simp] theorem State.present_taken (b : List Byte) : { s.present b with port := s.port } = s := rfl

/-- STATUS does not show the response, the port or the register of the other engine. -/
@[simp] theorem State.status_response (r : Option Response) : { s with response := r }.status = s.status := rfl
@[simp] theorem State.status_port (p : List PortEvent) : { s with port := p }.status = s.status := rfl
@[simp] theorem State.status_crc (c : Word16) : { s with crc := c }.status = s.status := rfl

/-- R96, R97: STATUS after RX.START or RX.ABORT is the control state alone. -/
theorem State.status_eraseCycle (x : RxState) (t : Word32) : (s.eraseCycle x t).status = x.code.setWidth 32 := by
  have h : (s.eraseCycle x t).status =
      0#24 ++ BitVec.ofBool false ++ BitVec.ofBool false ++ BitVec.ofBool false ++ CycleOutcome.none.code ++ x.code := rfl
  rw [h]
  cases x <;> decide

end Sys2Proof.Machine
end

