-- ==== Sys2Proof/Laws/Ops.lean ====
section
/-! SUPPORT. For each shared operation, one lemma that says all it can do; later proofs cite these instead of unfolding
the operations. -/

namespace Sys2Proof.Machine

/-! ### Responses -/

@[simp] theorem respond_eq (c : ResponseCode) (d : Word32) (s : State) :
    respond c d s = .next { s with response := some ⟨c, d⟩ } := rfl

theorem respond_eq_onlyAnswers (c : ResponseCode) (d : Word32) (s : State) : respond c d s = onlyAnswers s c d := rfl

theorem respondStatus_eq (c : ResponseCode) (s : State) : respondStatus c s = onlyAnswers s c s.status := rfl

theorem respondError_eq (c : ResponseCode) (s : State) : respondError c s = onlyAnswers s c 0#32 := rfl

/-- Answering has one next state. -/
@[simp] theorem onlyAnswers_next_iff (s t : State) (c : ResponseCode) (d : Word32) :
    onlyAnswers s c d = .next t ↔ t = { s with response := some ⟨c, d⟩ } := by
  simp [onlyAnswers, eq_comm]

/-! ### Helper procedures -/

@[simp] theorem State.learnCount_none (s : State) : s.learnCount none = s := rfl

/-- R103, R104: learning a count writes `stale`, the buffer, `exp_total` and `exp_valid`, and nothing else. -/
theorem State.learnCount_eq (s : State) (count : Option Byte) :
    s.learnCount count =
      { s with slots := if conflicts s count s.occ then [] else s.slots, stale := s.stale || conflicts s count s.occ,
               expTotal := count.getD s.expTotal, expValid := s.expValid || count.isSome } := by
  cases count with
  | none => simp [State.learnCount, conflicts]
  | some c =>
    have hc : s.staleConflict c = conflicts s (some c) s.occ := rfl
    cases h : conflicts s (some c) s.occ <;>
      simp [State.learnCount, State.staleReset, State.clearBuffer, hc, h]

/-- R104: the buffer after learning a count. -/
theorem State.learnCount_slots (s : State) (count : Option Byte) :
    (s.learnCount count).slots = if conflicts s count s.occ then [] else s.slots := by
  rw [State.learnCount_eq]

/-- R100: what `collect` does under `check_then_record`. -/
theorem State.collect_checkThenRecord {s : State} (h : s.cfg.staleOrder = .checkThenRecord) (count : Option Byte)
    (i : Byte) (t : List Byte) : s.collect count i t = (s.learnCount count).recordSlice i t := by
  simp [State.collect, h]

/-- R101: what `collect` does under `record_then_check`. -/
theorem State.collect_recordThenCheck {s : State} (h : s.cfg.staleOrder = .recordThenCheck) (count : Option Byte)
    (i : Byte) (t : List Byte) : s.collect count i t = (s.recordSlice i t).learnCount count := by
  simp [State.collect, h]

/-- Under either order collecting writes the buffer, `stale`, `exp_total` and `exp_valid`, and nothing else; the buffer
stays canonical. -/
theorem State.collect_frame (s : State) (count : Option Byte) (i : Byte) (t : List Byte) :
    s.collect count i t =
      { s with slots := (s.collect count i t).slots, stale := (s.collect count i t).stale,
               expTotal := count.getD s.expTotal, expValid := s.expValid || count.isSome } ∧
    (s.stale = true → (s.collect count i t).stale = true) ∧
    (s.slots.wf → (s.collect count i t).slots.wf) := by
  cases h : s.cfg.staleOrder
  · rw [State.collect_checkThenRecord h, State.learnCount_eq]
    refine ⟨rfl, fun hs => by simp [State.recordSlice, hs], fun hw => SlotMemory.write_wf ?_ _ _⟩
    dsimp only
    split
    · exact SlotMemory.wf_nil
    · exact hw
  · rw [State.collect_recordThenCheck h, State.learnCount_eq]
    refine ⟨rfl, fun hs => by simp [State.recordSlice, hs], fun hw => ?_⟩
    rw [← State.learnCount_eq, State.learnCount_slots]
    split
    · exact SlotMemory.wf_nil
    · exact SlotMemory.write_wf hw _ _

/-- Every slice after collecting is the new one or was there before. -/
theorem State.mem_collect_slots {s : State} {count : Option Byte} {i : Byte} {t : List Byte} {e : Byte × List Byte}
    (h : e ∈ (s.collect count i t).slots) : e = (i, t) ∨ e ∈ s.slots := by
  cases ho : s.cfg.staleOrder
  · rw [State.collect_checkThenRecord ho, State.learnCount_eq] at h
    rcases SlotMemory.mem_write h with h | h
    · exact .inl h
    · dsimp only at h
      split at h
      · simp at h
      · exact .inr h
  · rw [State.collect_recordThenCheck ho, State.learnCount_slots] at h
    split at h
    · simp at h
    · exact SlotMemory.mem_write h

/-- R106: a validated concatenation is the payload followed by its checksum in 4 hexadecimal characters. -/
theorem validate_eq_some_iff (cat body : List Byte) :
    validate cat = some body ↔
      ∃ field, cat = body ++ field ∧ field.length = 4 ∧ hex4 field = some (checksum body) := by
  unfold validate
  constructor
  · intro h
    split at h
    · rename_i hlen
      split at h
      · rename_i hok
        cases h
        exact ⟨cat.drop (cat.length - 4), (List.take_append_drop _ _).symm, by simp; omega, hok⟩
      · cases h
    · cases h
  · rintro ⟨field, rfl, hlen, hok⟩
    simp [hlen, hok]

/-- R106: `Finish` ends the cycle in one of two ways. -/
theorem State.finish_cases (s : State) :
    (∃ body, validate s.slots.concat = some body ∧
      s.finish = { s with slots := [], out := body, outcome := .success, st := .complete }) ∨
    (validate s.slots.concat = none ∧
      s.finish = { s with slots := [], out := [], outcome := .checksumMismatch, st := .complete }) := by
  unfold State.finish
  split
  · rename_i body h
    exact .inl ⟨body, h, rfl⟩
  · rename_i h
    exact .inr ⟨h, rfl⟩

/-- R105: after collecting, `Accept` finishes exactly when the completion test holds. -/
theorem State.accept_cases (s : State) (count : Option Byte) (i : Byte) (t : List Byte) :
    ((s.collect count i t).completionTest = true ∧
      s.accept count i t = State.finish { s.collect count i t with timer := 0#32, st := .collecting }) ∨
    ((s.collect count i t).completionTest = false ∧
      s.accept count i t = { s.collect count i t with timer := 0#32, st := .collecting }) := by
  unfold State.accept State.finishIfComplete
  cases h : (s.collect count i t).completionTest
  · right
    exact ⟨rfl, if_neg (by simpa [State.completionTest, State.occ] using h)⟩
  · left
    exact ⟨rfl, if_pos h⟩

/-- R107: a counted tick counts, or times the cycle out. -/
theorem State.countTick_cases (s : State) :
    (¬ s.tmo.toNat < (satIncr s.timer).toNat ∧ s.countTick = { s with timer := satIncr s.timer }) ∨
    (s.tmo.toNat < (satIncr s.timer).toNat ∧
      s.countTick = { s with timer := satIncr s.timer, slots := [], out := [], outcome := .timeout,
                             st := .timedOut }) := by
  unfold State.countTick
  by_cases h : s.tmo.toNat < (satIncr s.timer).toNat
  · right
    exact ⟨h, by simp [State.timerExpired, h, State.timeOut, State.clearBuffer, State.clearOut]⟩
  · left
    exact ⟨h, by simp [State.timerExpired, h]⟩

/-- R113: the saturating increment, as a number. -/
theorem satIncr_toNat (t : Word32) : (satIncr t).toNat = min (t.toNat + 1) 0xFFFFFFFF := by
  simp only [satIncr, BitVec.toNat_ofNat]
  omega

/-! ### Tests of the state -/

theorem State.cycleActive_iff (s : State) : s.cycleActive = true ↔ s.st = .idle ∨ s.st = .collecting := by
  unfold State.cycleActive
  cases s.st <;> simp

theorem State.tickCounted_iff (s : State) :
    s.tickCounted = true ↔ s.st = .collecting ∨ (s.st = .idle ∧ s.cfg.idleTimeoutEn = true) := by
  unfold State.tickCounted
  cases s.st <;> simp

theorem State.completionTest_iff (s : State) :
    s.completionTest = true ↔ s.expValid = true ∧ s.occ = s.expTotal.toNat := by
  simp [State.completionTest]

/-! ### Sequences of commands -/

@[simp] theorem runAll_nil (s : State) : runAll [] s = some s := rfl

theorem runAll_cons {i : Instr} {s t : State} (h : exec i s = .next t) (is : List Instr) :
    runAll (i :: is) s = runAll is t := by
  simp [runAll, h, nextOf]

theorem runAll_append {a : List Instr} {s t : State} (h : runAll a s = some t) (b : List Instr) :
    runAll (a ++ b) s = runAll b t := by
  induction a generalizing s with
  | nil =>
    cases h
    rfl
  | cons i a ih =>
    cases hn : nextOf (exec i s) with
    | none => simp [runAll, hn] at h
    | some u =>
      simp only [runAll, hn] at h
      simp only [List.cons_append, runAll, hn]
      exact ih h

/-! ### Meanings -/

/-- R98: an accepted frame in an active cycle, IGNORED otherwise. -/
theorem acceptFrame_cases (count : Option Byte) (i : Byte) (t : List Byte) (s : State) :
    (s.cycleActive = true ∧
      acceptFrame count i t s = onlyAnswers (s.accept count i t) .ok (s.accept count i t).status) ∨
    (s.cycleActive = false ∧ acceptFrame count i t s = onlyAnswers s .ignored s.status) := by
  unfold acceptFrame
  cases h : s.cycleActive
  · exact .inr ⟨rfl, rfl⟩
  · exact .inl ⟨rfl, rfl⟩

/-- R98, R99: RX.FRAME is ignored, discards a malformed frame, or accepts. -/
theorem execRxFrame_cases (raw : List Byte) (s : State) :
    (s.cycleActive = false ∧ execRxFrame raw s = onlyAnswers s .ignored s.status) ∨
    (s.cycleActive = true ∧ parseFrame s.cfg raw = none ∧
      execRxFrame raw s = onlyAnswers { s with malf := true } .discarded { s with malf := true }.status) ∨
    (∃ p, s.cycleActive = true ∧ parseFrame s.cfg raw = some p ∧
      execRxFrame raw s = onlyAnswers (s.accept p.count p.index (raw.drop p.off)) .ok
        (s.accept p.count p.index (raw.drop p.off)).status) := by
  unfold execRxFrame
  cases h : s.cycleActive
  · exact .inl ⟨rfl, rfl⟩
  · cases hp : parseFrame s.cfg raw with
    | none => exact .inr (.inl ⟨rfl, rfl, rfl⟩)
    | some p => exact .inr (.inr ⟨p, rfl, rfl, by simp [acceptFrame, h, parsedSlice, respondStatus_eq]⟩)

/-- R107: RX.TICK counts, passes uncounted in IDLE, or is ignored. -/
theorem execRxTick_cases (s : State) :
    (s.tickCounted = true ∧ execRxTick s = onlyAnswers s.countTick .ok s.countTick.status) ∨
    (s.tickCounted = false ∧ s.st = .idle ∧ execRxTick s = onlyAnswers s .ok s.status) ∨
    (s.tickCounted = false ∧ s.st ≠ .idle ∧ execRxTick s = onlyAnswers s .ignored s.status) := by
  unfold execRxTick
  cases h : s.tickCounted
  · by_cases hi : s.st = .idle
    · exact .inr (.inl ⟨rfl, hi, by simp [hi, respondStatus_eq]⟩)
    · exact .inr (.inr ⟨rfl, hi, by simp [hi, respondStatus_eq]⟩)
  · exact .inl ⟨rfl, by simp [respondStatus_eq]⟩

/-- R120: RD answers a register or ERR_RANGE. -/
theorem execRd_cases (r : Byte) (s : State) :
    (∃ d, s.statusRegister r = some d ∧ execRd r s = onlyAnswers s .ok d) ∨
    (s.statusRegister r = none ∧ execRd r s = onlyAnswers s .errRange 0#32) := by
  unfold execRd
  cases h : s.statusRegister r with
  | none => exact .inr ⟨rfl, rfl⟩
  | some d => exact .inl ⟨d, rfl, rfl⟩

/-- R121: RX.BYTE answers a byte, ERR_RANGE or ERR_STATE. -/
theorem execRxByte_cases (i : Word16) (s : State) :
    (∃ b, s.outcome = .success ∧ s.out[i.toNat]? = some b ∧ execRxByte i s = onlyAnswers s .ok (b.setWidth 32)) ∨
    (s.outcome = .success ∧ s.out[i.toNat]? = none ∧ execRxByte i s = onlyAnswers s .errRange 0#32) ∨
    (s.outcome ≠ .success ∧ execRxByte i s = onlyAnswers s .errState 0#32) := by
  unfold execRxByte State.outByte
  by_cases h : s.outcome = .success
  · cases hb : s.out[i.toNat]? with
    | none => exact .inr (.inl ⟨h, rfl, by simp [h, respondError_eq]⟩)
    | some b => exact .inl ⟨b, h, rfl, by simp [h, onlyAnswers]⟩
  · exact .inr (.inr ⟨h, by simp [h, respondError_eq]⟩)

/-! ### The step -/

/-- A step under a well-formed parameter set is what the port holds. -/
theorem step_eq_fetch {s : State} (h : s.cfg.wf = true) :
    step s = match s.fetch with
      | .waiting => .next s
      | .reset t => .next t.applyReset
      | .rejected e t => respondError (errorCode e) t
      | .command i t => exec i t := by
  unfold step
  exact if_pos h

/-- A step that answers a next state had a well-formed parameter set. -/
theorem wf_of_step {s t : State} (h : step s = .next t) : s.cfg.wf = true := by
  unfold step at h
  split at h
  · assumption
  · cases h

/-- What the next step does with a presented command. -/
theorem fetch_present (s : State) (b : List Byte) :
    (s.present b).fetch = match decode s.cfg b with
      | .error e => .rejected e s
      | .ok i => .command i s := by
  simp only [State.fetch, State.present_port, State.present_cfg]
  rfl

/-- R51: a presented command is refused with its code, or is its instruction's effect. -/
theorem step_present {s : State} (h : s.cfg.wf = true) (b : List Byte) :
    step (s.present b) = match decode s.cfg b with
      | .error e => onlyAnswers s (errorCode e) 0#32
      | .ok i => exec i s := by
  rw [step_eq_fetch (by simpa using h), fetch_present]
  cases decode s.cfg b <;> rfl

end Sys2Proof.Machine
end

