-- ==== Sys2Proof/Laws/PerInstr.lean ====
section
/-! SUPPORT. The per-instruction family FormatLength: R52, the length of a well-formed command is the function of its
first two bytes that the rule gives. -/

namespace Sys2Proof.Laws.FormatLength

/-- R46, R52: the command's length is what R52 reads off its first bytes. -/
def Statement (i : Instr) : Prop :=
  ∀ cfg : Config, cfg.wf = true → i.wf cfg = true → i.isCommand = true →
    commandLength (encode cfg i) = some (encode cfg i).length

theorem crcInit : Statement .crcInit := fun _ _ _ _ => rfl

theorem crcByte (b : Byte) : Statement (.crcByte b) := fun _ _ _ _ => rfl

/-- A well-formed parameter set keeps the length of a raw frame within its length byte. -/
theorem length_byte {cfg : Config} {raw : List Byte} (hc : cfg.wf = true) (hr : raw.length ≤ cfg.maxFrame) :
    (BitVec.ofNat 8 raw.length).toNat = raw.length := by
  simp only [Config.wf, Bool.and_eq_true, decide_eq_true_eq] at hc
  simp only [BitVec.toNat_ofNat]
  omega

theorem fpParse (raw : List Byte) : Statement (.fpParse raw) := fun cfg hc hw _ => by
  have h := length_byte hc (of_decide_eq_true hw)
  have hf : formatOf 0x20#8 = some .l := by decide
  simp only [encode, commandLength, hf, List.headD_cons, h, List.length_cons]
  congr 1
  omega

theorem rxStart (t : Word32) : Statement (.rxStart t) := fun _ _ _ _ => rfl

theorem rxFrame (raw : List Byte) : Statement (.rxFrame raw) := fun cfg hc hw _ => by
  have h := length_byte hc (of_decide_eq_true hw)
  have hf : formatOf 0x31#8 = some .l := by decide
  simp only [encode, commandLength, hf, List.headD_cons, h, List.length_cons]
  congr 1
  omega

theorem rxTick : Statement .rxTick := fun _ _ _ _ => rfl

theorem rxAbort : Statement .rxAbort := fun _ _ _ _ => rfl

theorem rxByte (i : Word16) : Statement (.rxByte i) := fun _ _ _ _ => rfl

theorem rd (r : Byte) : Statement (.rd r) := fun _ _ _ _ => rfl

theorem frameF0 (c i : Byte) (slice : List Byte) : Statement (.frameF0 c i slice) := fun _ _ _ h => by cases h

theorem frameFN (i : Byte) (slice : List Byte) : Statement (.frameFN i slice) := fun _ _ _ h => by cases h

end Sys2Proof.Laws.FormatLength
end

