-- ==== Sys2Proof/Machine/Assembler.lean ====
section
/-! DEFINITION. The spec's own assembler (30_encoding.md part C): the written form of a command (R62) and the
pseudo-instructions (R63). No effect on behaviour (D26). -/

namespace Sys2Proof.Machine

/-- The decimal digits of a number, most significant first, as ASCII codes; `fuel` bounds how many are written. -/
def decimal : Nat → Nat → List Byte
  | 0, _ => []
  | fuel + 1, n =>
    (if n < 10 then [] else decimal fuel (n / 10)) ++ [BitVec.ofNat 8 (0x30 + n % 10)]

/-- R62: one byte of a quoted string. R62 lets a byte be written as its character or as `\xNN` and gives no letter case
for `NN`. DESIGN CHOICE (assumption log 15): `\xNN` with upper-case digits for a byte outside 0x20 to 0x7E, a backslash
before a double quote and before a backslash, and the character itself for every other byte. -/
def quotedByte (b : Byte) : List Byte :=
  if b = 0x22#8 ∨ b = 0x5C#8 then [0x5C#8, b]
  else if 0x20 ≤ b.toNat ∧ b.toNat ≤ 0x7E then [b]
  else [0x5C#8, 0x78#8] ++ toHex2 true b

/-- R62: the double-quoted string operand of format L. -/
def quoted (raw : List Byte) : List Byte := [0x22#8] ++ raw.flatMap quotedByte ++ [0x22#8]

/-- R62: a mnemonic's ASCII codes. -/
def ascii (s : List Nat) : List Byte := s.map (BitVec.ofNat 8)

/-- R62: the line that writes a command; a wire format is written only inside such a line. DESIGN CHOICE (assumption log
15): numbers in decimal without leading zeros, and one space between mnemonic and operand. -/
def asmLine : Instr → Option (List Byte)
  | .crcInit => some (ascii [0x43, 0x52, 0x43, 0x2E, 0x49, 0x4E, 0x49, 0x54])
  | .crcByte b => some (ascii [0x43, 0x52, 0x43, 0x2E, 0x42, 0x59, 0x54, 0x45, 0x20] ++ decimal 3 b.toNat)
  | .fpParse raw => some (ascii [0x46, 0x50, 0x2E, 0x50, 0x41, 0x52, 0x53, 0x45, 0x20] ++ quoted raw)
  | .rxStart t => some (ascii [0x52, 0x58, 0x2E, 0x53, 0x54, 0x41, 0x52, 0x54, 0x20] ++ decimal 10 t.toNat)
  | .rxFrame raw => some (ascii [0x52, 0x58, 0x2E, 0x46, 0x52, 0x41, 0x4D, 0x45, 0x20] ++ quoted raw)
  | .rxTick => some (ascii [0x52, 0x58, 0x2E, 0x54, 0x49, 0x43, 0x4B])
  | .rxAbort => some (ascii [0x52, 0x58, 0x2E, 0x41, 0x42, 0x4F, 0x52, 0x54])
  | .rxByte i => some (ascii [0x52, 0x58, 0x2E, 0x42, 0x59, 0x54, 0x45, 0x20] ++ decimal 5 i.toNat)
  | .rd r => some (ascii [0x52, 0x44, 0x20] ++ decimal 3 r.toNat)
  | .frameF0 _ _ _ => none
  | .frameFN _ _ => none

/-- R63: `CRC.MSG "s"`. -/
def crcMsg (s : List Byte) : List Instr := .crcInit :: s.map .crcByte ++ [.rd 6#8]

/-- R63: `RX.WAIT k`. -/
def rxWait (k : Nat) : List Instr := List.replicate k .rxTick

/-- R63: `RX.READ`, for the `out_len` that `RD 5` reads. -/
def rxRead (outLen : Word16) : List Instr :=
  .rd 5#8 :: (List.range outLen.toNat).map (fun k => .rxByte (BitVec.ofNat 16 k))

end Sys2Proof.Machine
end

