-- ==== Sys2Proof/Tests/Slice0.lean ====
section
/-! SUPPORT. Tests. Expected values come from 95_test_vectors.md (named in each comment) or from the rule named there.
The last part shows, for every statement with hypotheses, a state and operands that meet them. -/

namespace Sys2Proof.Tests

open Sys2Proof Sys2Proof.Machine

/-! ### Small states -/

/-- Reset, then RX.START with `tmo` ticks. -/
def started (tmo : Word32) : State := { State.reset with st := .idle, tmo := tmo }

/-- A collecting cycle that holds the given slices. -/
def collecting (m : SlotMemory) : State := { started 2#32 with st := .collecting, slots := m }

/-- A collecting cycle that holds the given slices and has learned a count. -/
def counted (c : Byte) (m : SlotMemory) : State := { collecting m with expValid := true, expTotal := c }

/-- A cycle that recovered the payload `"A"` (program P2, step 3). -/
def recovered : State :=
  { started 3#32 with st := .complete, outcome := .success, expValid := true, expTotal := 1#8, out := [0x41#8] }

/-- The same state under the other stale order. -/
def literalOrder (s : State) : State := { s with cfg := { s.cfg with staleOrder := .recordThenCheck } }

/-- The frame `"<MARK>0100A9479"` (E1). -/
def frameA : List Byte :=
  [0x3C#8, 0x4D#8, 0x41#8, 0x52#8, 0x4B#8, 0x3E#8, 0x30#8, 0x31#8, 0x30#8, 0x30#8, 0x41#8, 0x39#8, 0x34#8, 0x37#8, 0x39#8]

/-- The frame `"01zz"` (V8, P2). -/
def frameZ : List Byte := [0x30#8, 0x31#8, 0x7A#8, 0x7A#8]

/-- The response a step gives. -/
def answer (r : StepResult) : Option Response := (nextOf r).bind State.response

/-! ### Well-formedness: one ill-formed term for each check of R6 and R65 -/

theorem test_standard_parameters_wf : Config.standard.wf = true := by decide
theorem test_empty_marker_refused : Config.wf { Config.standard with marker := [] } = false := by decide
theorem test_small_maxFrame_refused : Config.wf { Config.standard with maxFrame := 9 } = false := by decide
theorem test_smallest_maxFrame_accepted : Config.wf { Config.standard with maxFrame := 10 } = true := by decide
theorem test_large_maxFrame_refused : Config.wf { Config.standard with maxFrame := 256 } = false := by decide
theorem test_largest_maxFrame_accepted : Config.wf { Config.standard with maxFrame := 255 } = true := by decide
theorem test_hex_marker_head_refused :
    Config.wf { Config.standard with marker := [0x30#8, 0x61#8, 0x3E#8] } = false := by decide
theorem test_half_hex_marker_head_accepted :
    Config.wf { Config.standard with marker := [0x30#8, 0x67#8, 0x3E#8] } = true := by decide
theorem test_one_byte_hex_marker_refused : Config.wf { Config.standard with marker := [0x46#8] } = false := by decide
theorem test_one_byte_marker_accepted : Config.wf { Config.standard with marker := [0x47#8] } = true := by decide
theorem test_long_parse_refused :
    Instr.wf Config.standard (.fpParse (List.replicate 33 0#8)) = false := by decide
theorem test_longest_parse_accepted :
    Instr.wf Config.standard (.fpParse (List.replicate 32 0#8)) = true := by decide
theorem test_long_frame_refused :
    Instr.wf Config.standard (.rxFrame (List.replicate 33 0#8)) = false := by decide
theorem test_long_F0_slice_refused :
    Instr.wf Config.standard (.frameF0 1#8 0#8 (List.replicate 23 0#8)) = false := by decide
theorem test_longest_F0_slice_accepted :
    Instr.wf Config.standard (.frameF0 1#8 0#8 (List.replicate 22 0#8)) = true := by decide
theorem test_long_FN_slice_refused :
    Instr.wf Config.standard (.frameFN 1#8 (List.replicate 31 0#8)) = false := by decide
theorem test_longest_FN_slice_accepted :
    Instr.wf Config.standard (.frameFN 1#8 (List.replicate 30 0#8)) = true := by decide

/-! ### Decoding: words written out from R46 to R48, R53, R54 -/

theorem test_decode_crcInit : decode Config.standard [0x10#8] = .ok .crcInit := by decide
theorem test_decode_crcByte : decode Config.standard [0x11#8, 0x31#8] = .ok (.crcByte 0x31#8) := by decide
theorem test_decode_fpParse : decode Config.standard [0x20#8, 0x02#8, 0x30#8, 0x41#8] = .ok (.fpParse [0x30#8, 0x41#8]) := by
  decide
theorem test_decode_fpParse_empty : decode Config.standard [0x20#8, 0x00#8] = .ok (.fpParse []) := by decide
theorem test_decode_rxStart :
    decode Config.standard [0x30#8, 0x00#8, 0x01#8, 0x02#8, 0x03#8] = .ok (.rxStart 0x00010203#32) := by decide
/-- R62's example. -/
theorem test_decode_rxFrame : decode Config.standard (0x31#8 :: 0x0F#8 :: frameA) = .ok (.rxFrame frameA) := by decide
theorem test_decode_rxTick : decode Config.standard [0x32#8] = .ok .rxTick := by decide
theorem test_decode_rxAbort : decode Config.standard [0x33#8] = .ok .rxAbort := by decide
theorem test_decode_rxByte : decode Config.standard [0x34#8, 0x01#8, 0x3E#8] = .ok (.rxByte 0x013E#16) := by decide
theorem test_decode_rd : decode Config.standard [0x40#8, 0x06#8] = .ok (.rd 6#8) := by decide
/-- E1. -/
theorem test_decode_frameF0 :
    decodeFrame Config.standard frameA = some (.frameF0 1#8 0#8 [0x41#8, 0x39#8, 0x34#8, 0x37#8, 0x39#8]) := by decide
/-- Section 3.1: `"Ff"` is index 255. -/
theorem test_decode_frameFN : decodeFrame Config.standard [0x46#8, 0x66#8] = some (.frameFN 255#8 []) := by decide

theorem test_reject_empty : decode Config.standard [] = .error .emptyCommand := by decide
theorem test_reject_opcode_00 : decode Config.standard [0x00#8] = .error (.illegalOpcode 0x00#8) := by decide
theorem test_reject_opcode_FF : decode Config.standard [0xFF#8, 1#8] = .error (.illegalOpcode 0xFF#8) := by decide
theorem test_reject_Z_long : decode Config.standard [0x32#8, 0#8] = .error (.badLength 0x32#8) := by decide
theorem test_reject_B_short : decode Config.standard [0x11#8] = .error (.badLength 0x11#8) := by decide
theorem test_reject_H_long : decode Config.standard [0x34#8, 0#8, 0#8, 0#8] = .error (.badLength 0x34#8) := by decide
theorem test_reject_W_short : decode Config.standard [0x30#8, 0#8, 0#8, 0#8] = .error (.badLength 0x30#8) := by decide
theorem test_reject_L_without_length : decode Config.standard [0x20#8] = .error (.badLength 0x20#8) := by decide
theorem test_reject_L_mismatch : decode Config.standard [0x31#8, 2#8, 0x30#8] = .error (.badLength 0x31#8) := by decide
theorem test_reject_L_too_long :
    decode Config.standard (0x31#8 :: 33#8 :: List.replicate 33 0x30#8) = .error (.frameTooLong 33#8) := by decide
/-- R51: the length is tested before the bound. -/
theorem test_reject_L_mismatch_before_bound :
    decode Config.standard [0x31#8, 33#8, 0x30#8] = .error (.badLength 0x31#8) := by decide

/-- R60: an F0 frame one byte short, `"<MARK>010"`, is malformed and not re-read as FN. -/
theorem test_malformed_short_F0 : parseFrame Config.standard (frameA.take 9) = none := by decide
/-- Section 3.1: `"0G"`. -/
theorem test_malformed_digit : parseFrame Config.standard [0x30#8, 0x47#8] = none := by decide

/-- Table words number the first byte lowest; missing operand bytes are zero. -/
theorem test_table_word_rxByte : decodeTableWord 24 0x3E0134 = some (.rxByte 0x013E#16) := by decide
theorem test_table_word_rxStart : decodeTableWord 8 0x30 = some (.rxStart 0#32) := by decide
theorem test_table_word_rxFrame : decodeTableWord 8 0x31 = some (.rxFrame []) := by decide
theorem test_table_word_illegal : decodeTableWord 8 0x12 = none := by decide
theorem test_withFetchWord_runs_first :
    nextOf (step (State.reset.withFetchWord 8 0x30)) = nextOf (exec (.rxStart 0#32) State.reset) := by decide

/-! ### Commands -/

/-- P1, step 1: `00 00 00 1D 0F`. -/
theorem test_crcInit : answer (exec .crcInit { State.reset with crc := 0xE5CC#16 }) = some ⟨.ok, 0x1D0F#32⟩ := by decide
/-- P1, step 2. -/
theorem test_crcByte : answer (exec (.crcByte 0x31#8) State.reset) = some ⟨.ok, 0xEAEE#32⟩ := by decide
/-- Section 2.5: one more byte from 0xE5CC. -/
theorem test_crcByte_continues :
    (nextOf (exec (.crcByte 0x41#8) { State.reset with crc := 0xE5CC#16 })).map State.crc = some 0x396E#16 := by decide
/-- R86: `FP.PARSE "<MARK>0100A9479"` answers `00 03 01 00 0A`. -/
theorem test_fpParse_F0 : answer (exec (.fpParse frameA) State.reset) = some ⟨.ok, 0x0301000A#32⟩ := by decide
/-- R86: `FP.PARSE "02xyz"` answers `00 01 00 02 02`. -/
theorem test_fpParse_FN :
    answer (exec (.fpParse [0x30#8, 0x32#8, 0x78#8, 0x79#8, 0x7A#8]) State.reset) = some ⟨.ok, 0x01000202#32⟩ := by decide
/-- R96: `RX.START 3`, from a complete cycle. -/
theorem test_rxStart_erases :
    (nextOf (exec (.rxStart 7#32) recovered)).map (fun t => (t.st, t.tmo, t.out, t.expValid)) =
      some (.idle, 7#32, [], false) := by decide
theorem test_rxStart_answer : answer (exec (.rxStart 3#32) recovered) = some ⟨.ok, 1#32⟩ := by decide
/-- P2, step 3. -/
theorem test_rxFrame_completes :
    (nextOf (exec (.rxFrame frameA) (started 3#32))).map (fun t => (t.out, t.response)) =
      some ([0x41#8], some ⟨.ok, 0x2B#32⟩) := by decide
/-- P3, step 8: malformed, timer not restarted. -/
theorem test_rxFrame_discarded :
    (nextOf (exec (.rxFrame [0x30#8, 0x47#8]) { collecting [(2#8, [])] with timer := 2#32 })).map
      (fun t => (t.timer, t.response)) = some (2#32, some ⟨.discarded, 0x42#32⟩) := by decide
/-- R107's example: the third tick of `RX.START 2` ends the cycle with `00 00 00 00 1C`. -/
theorem test_rxTick_times_out :
    (nextOf (exec .rxTick { collecting [(2#8, [])] with timer := 2#32 })).map (fun t => (t.timer, t.response)) =
      some (3#32, some ⟨.ok, 0x1C#32⟩) := by decide
/-- R113: `tmo = 0xFFFFFFFF` never times out; the timer saturates. -/
theorem test_rxTick_saturates :
    (nextOf (exec .rxTick { collecting [(2#8, [])] with timer := 0xFFFFFFFF#32, tmo := 0xFFFFFFFF#32 })).map
      (fun t => (t.timer, t.st)) = some (0xFFFFFFFF#32, .collecting) := by decide
/-- P2, step 9. -/
theorem test_rxAbort :
    (nextOf (exec .rxAbort recovered)).map (fun t => (t.tmo, t.out, t.response)) =
      some (0#32, [], some ⟨.ok, 0#32⟩) := by decide
/-- P2, steps 5 and 6. -/
theorem test_rxByte : answer (exec (.rxByte 0#16) recovered) = some ⟨.ok, 0x41#32⟩ := by decide
theorem test_rxByte_range : answer (exec (.rxByte 1#16) recovered) = some ⟨.errRange, 0#32⟩ := by decide
/-- R120's examples. -/
theorem test_rd_crc : answer (exec (.rd 6#8) State.reset) = some ⟨.ok, 0x1D0F#32⟩ := by decide
theorem test_rd_range : answer (exec (.rd 7#8) State.reset) = some ⟨.errRange, 0#32⟩ := by decide
/-- V6, step 3: count 0 after count 2, both occupancies 1: cleared, recorded, 0xA2. -/
theorem test_frameF0_count_zero :
    answer (exec (.frameF0 0#8 0#8 [0x79#8]) (counted 2#8 [(0#8, [0x78#8])])) = some ⟨.ok, 0xA2#32⟩ := by decide
/-- V7, step 3: the same under `record_then_check` finishes on an empty buffer, 0xB3. -/
theorem test_frameF0_count_zero_literal :
    answer (exec (.frameF0 0#8 0#8 [0x79#8]) (literalOrder (counted 2#8 [(0#8, [0x78#8])]))) =
      some ⟨.ok, 0xB3#32⟩ := by decide
/-- V15, step 3: index 5 completes a count of 2. -/
theorem test_frameFN_completes :
    (nextOf (exec (.frameFN 5#8 [0x39#8, 0x34#8, 0x37#8, 0x39#8]) (counted 2#8 [(0#8, [0x41#8])]))).map
      (fun t => (t.out, t.response)) = some ([0x41#8], some ⟨.ok, 0x2B#32⟩) := by decide
/-- R111 item 3: a duplicate replaces the slice and leaves the occupancy. -/
theorem test_frameFN_duplicate :
    (nextOf (exec (.frameFN 1#8 [0x7A#8]) (collecting [(1#8, [0x78#8]), (4#8, [])]))).map State.slots =
      some [(1#8, [0x7A#8]), (4#8, [])] := by decide

/-! ### Port -/

theorem test_step_waits : nextOf (step State.reset) = some State.reset := by decide
theorem test_step_takes_oldest :
    (nextOf (step { State.reset with port := [.command [0x11#8, 0x41#8], .reset] })).map (fun t => (t.crc, t.port)) =
      some (0x9479#16, [.reset]) := by decide
theorem test_step_refuses_illegal_opcode : answer (step (State.reset.present [0x00#8])) = some ⟨.errOp, 0#32⟩ := by decide

/-! ### Checksum and hexadecimal vectors (2.1, 2.3, 2.6), packer (E1, E6), assembler (R62) -/

theorem test_table_spots : [tab 0x2C#8, tab 0x5C#8, tab 0xFF#8] = [0xE5EE#16, 0x9B79#16, 0x1EF0#16] := by decide
theorem test_check_value :
    checksum [0x31#8, 0x32#8, 0x33#8, 0x34#8, 0x35#8, 0x36#8, 0x37#8, 0x38#8, 0x39#8] = 0xE5CC#16 := by decide
theorem test_hex4_mixed_case : hex4 [0x65#8, 0x35#8, 0x43#8, 0x63#8] = some 0xE5CC#16 := by decide
theorem test_hex4_rejects : hex4 [0x30#8, 0x78#8, 0x31#8, 0x46#8] = none := by decide
theorem test_pack_A : pack Config.standard 32 [0x41#8] = .ok [frameA] := by decide
theorem test_asm_rd : asmLine (.rd 7#8) = some [0x52#8, 0x44#8, 0x20#8, 0x37#8] := by decide

/-! ### Witnesses: for each statement with hypotheses, a state and operands that meet them, clause by clause -/

theorem test_witness_CrcInitLoadsInitialValue : recovered.cfg.wf = true := by decide

theorem test_witness_CrcByteFoldsOneByte :
    recovered.cfg.wf = true ∧ ([] : List Byte).length ≠ 1 ∧ [0#8, 0#8].length ≠ 1 ∧
      Instr.crcInit ∉ [Instr.crcByte 0xFF#8, .rxTick, .rd 6#8] := by decide

theorem test_witness_ChecksumIsIncrementalAndAffine : [0x41#8, 0x42#8].length = [0#8, 0x80#8].length := by decide

theorem test_witness_OneFlippedBitChangesChecksum : 0 < [0x41#8].length ∧ 8 < (frameA.take 9).length := by decide

theorem test_witness_MalformedInExactlyFourCases :
    parseFrame Config.standard (frameA.take 9) = none ∧
    parseFrame Config.standard (frameA.take 9 ++ [0x47#8]) = none ∧
    parseFrame Config.standard [0x30#8] = none ∧
    parseFrame Config.standard [0x30#8, 0x47#8] = none ∧
    parseFrame Config.standard (frameA.take 10) ≠ none := by decide

theorem test_witness_FramesDecodeByTheirMarker :
    (frameA = Config.standard.marker ++ 0x30#8 :: 0x31#8 :: 0x30#8 :: 0x30#8 :: [0x41#8, 0x39#8, 0x34#8, 0x37#8, 0x39#8] ∧
      hexByte 0x30#8 0x31#8 = some 1#8 ∧ hexByte 0x30#8 0x30#8 = some 0#8) ∧
    (frameZ = 0x30#8 :: 0x31#8 :: [0x7A#8, 0x7A#8] ∧
      ¬ (Config.standard.markerLen ≤ frameZ.length ∧ frameZ.take Config.standard.markerLen = Config.standard.marker) ∧
      hexByte 0x30#8 0x31#8 = some 1#8) ∧
    parseFrame Config.standard frameZ = some { count := none, index := 1#8, off := 2 } := by decide

theorem test_witness_HexHeadIsNeverF0 :
    Config.standard.wf = true ∧ (hexVal 0x30#8).isSome = true ∧ (hexVal 0x66#8).isSome = true := by decide

theorem test_witness_FpParseReportsTheParse :
    recovered.cfg.wf = true ∧ frameA.length ≤ recovered.cfg.maxFrame ∧
    (List.replicate 32 0#8).length ≤ recovered.cfg.maxFrame ∧ ([] : List Byte).length ≠ (1#8).toNat ∧
    (List.replicate 33 0#8).length = (33#8).toNat ∧ recovered.cfg.maxFrame < (33#8).toNat := by decide

theorem test_witness_RxStartBeginsACycle :
    recovered.cfg.wf = true ∧ [0#8, 0#8, 0#8].length ≠ 4 ∧ [0#8, 0#8, 0#8, 0#8, 0#8].length ≠ 4 := by decide

theorem test_witness_RxAbortLeavesTheResetState : recovered.cfg.wf = true := by decide

theorem test_witness_RxFrameIsIgnoredDiscardedOrAccepted :
    (started 3#32).cfg.wf = true ∧ frameA.length ≤ (started 3#32).cfg.maxFrame ∧
    (recovered.st ≠ .idle ∧ recovered.st ≠ .collecting) ∧ (started 3#32).st = .idle ∧
    parseFrame (started 3#32).cfg frameA = some { count := some 1#8, index := 0#8, off := 10 } ∧
    parseFrame (started 3#32).cfg [0x30#8, 0x47#8] = none ∧ [0x30#8].length ≠ (0#8).toNat ∧
    (List.replicate 255 0#8).length = (255#8).toNat ∧ (started 3#32).cfg.maxFrame < (255#8).toNat :=
  ⟨by decide, by decide, by decide, by decide, by decide, by decide, by decide, List.length_replicate, by decide⟩

theorem test_witness_FrameEffectIsItsRxFrame :
    decodeFrame (started 3#32).cfg frameZ = some (.frameFN 1#8 [0x7A#8, 0x7A#8]) ∧ (started 3#32).st = .idle ∧
    (recovered.st ≠ .idle ∧ recovered.st ≠ .collecting) := by decide

/-- V3: count 1 against two slices of a count of 3 (conflict); then a count of 2 (`occ` not above it); and a completion. -/
theorem test_witness_AcceptChecksThenRecords :
    (counted 3#8 [(0#8, []), (1#8, [])]).slots.wf ∧
    (counted 3#8 [(0#8, []), (1#8, [])]).cfg.staleOrder = .checkThenRecord ∧
    conflicts (counted 3#8 [(0#8, []), (1#8, [])]) (some 1#8) 2 = true ∧
    conflicts (counted 3#8 [(0#8, []), (1#8, [])]) (some 2#8) 2 = false ∧
    ((counted 3#8 [(0#8, []), (1#8, [])]).accept none 2#8 []).st = .complete ∧
    ((counted 3#8 [(0#8, []), (1#8, [])]).accept none 1#8 []).st = .collecting := by decide

theorem test_witness_AcceptRecordsThenChecks :
    (literalOrder (counted 3#8 [(0#8, []), (1#8, [])])).slots.wf ∧
    (literalOrder (counted 3#8 [(0#8, []), (1#8, [])])).cfg.staleOrder = .recordThenCheck ∧
    (∀ c, some 3#8 = some c → (literalOrder (counted 3#8 [])).expValid = true →
      (literalOrder (counted 3#8 [])).expTotal = c) ∧
    conflicts (literalOrder (counted 3#8 [(0#8, []), (1#8, [])])) (some 2#8)
      (filled [(0#8, []), (1#8, [])] 2#8) = true ∧
    ((literalOrder (counted 3#8 [(0#8, []), (1#8, [])])).accept none 2#8 []).st = .complete ∧
    ((literalOrder (counted 3#8 [(0#8, []), (1#8, [])])).accept (some 2#8) 2#8 []).st = .collecting := by
  refine ⟨by decide, by decide, ?_, by decide, by decide, by decide⟩
  rintro c h -
  cases h
  rfl

theorem test_witness_FinishValidatesTheConcatenation :
    (collecting [(0#8, [0x41#8]), (5#8, [0x39#8, 0x34#8, 0x37#8, 0x39#8])]).slots.wf ∧
    SlotMemory.concat (collecting [(0#8, [0x41#8]), (5#8, [0x39#8, 0x34#8, 0x37#8, 0x39#8])]).slots =
      [0x41#8] ++ [0x39#8, 0x34#8, 0x37#8, 0x39#8] ∧
    hex4 [0x39#8, 0x34#8, 0x37#8, 0x39#8] = some (checksum [0x41#8]) ∧
    hex4 [0x39#8, 0x34#8, 0x37#8, 0x39#8] ≠ some (checksum [0x42#8]) := by decide

theorem test_witness_RxTickCountsAndTimesOut :
    (collecting []).cfg.wf = true ∧ (collecting []).st = .collecting ∧ ¬ (collecting []).tmo < 2#32 ∧
    (collecting []).tmo < 3#32 ∧ (started 3#32).st = .idle ∧ (started 3#32).cfg.idleTimeoutEn = false ∧
    recovered.st ≠ .idle ∧ recovered.st ≠ .collecting := by decide

theorem test_witness_CycleSurvivesExactlyTmoTicks :
    (collecting []).st = .collecting ∧ (collecting []).timer = 0#32 ∧ 2 ≤ (collecting []).tmo.toNat ∧
    (collecting []).tmo ≠ 0xFFFFFFFF#32 ∧
    ({ collecting [] with tmo := 0xFFFFFFFF#32 } : State).tmo = 0xFFFFFFFF#32 := by decide

theorem test_witness_TerminalStatesHold :
    recovered.st ≠ .idle ∧ recovered.st ≠ .collecting ∧ [Instr.rxTick, .rxFrame frameZ] ≠ [] ∧
    (∀ i ∈ [Instr.rxTick, .rxFrame frameZ], i = .rxTick ∨ ∃ raw, i = .rxFrame raw) ∧
    ∀ i ∈ [Instr.crcInit, .rxTick, .rxByte 0#16], i ≠ .rxAbort ∧ ∀ t, i ≠ .rxStart t := by
  refine ⟨by decide, by decide, by decide, ?_, ?_⟩ <;> simp

theorem test_witness_ExpectedTotalComesFromMarkerFrames :
    (started 2#32).expValid = false ∧ (started 2#32).st = .idle ∧
    (∀ i ∈ [Instr.rxFrame frameZ], i.isCommand = true ∧
      ∀ raw p, i = .rxFrame raw → parseFrame (started 2#32).cfg raw = some p → p.count = none) ∧
    (runAll [.rxFrame frameZ] (started 2#32)).isSome = true := by
  refine ⟨by decide, by decide, ?_, by decide⟩
  intro i hi
  rw [List.mem_singleton] at hi
  subst hi
  refine ⟨rfl, ?_⟩
  intro raw p hr hp
  cases hr
  have h : parseFrame (started 2#32).cfg frameZ = some { count := none, index := 1#8, off := 2 } := by decide
  rw [h] at hp
  cases hp
  rfl

theorem test_witness_StatusWordFields :
    exec .rxTick recovered = .next { recovered with response := some ⟨.ignored, recovered.status⟩ } := rfl

theorem test_witness_RdReadsEveryStatusRegister :
    recovered.cfg.wf = true ∧ 6 < (7#8).toNat ∧ 6 < (255#8).toNat ∧ ([] : List Byte).length ≠ 1 := by decide

theorem test_witness_RxByteReadsTheRecoveredPayload :
    recovered.cfg.wf = true ∧ (started 3#32).outcome ≠ .success ∧ recovered.outcome = .success ∧
    recovered.out.length ≤ (1#16).toNat ∧ (0#16).toNat < recovered.out.length ∧ [0#8].length ≠ 2 := by decide

theorem test_witness_StepRunsTheDecodedCommand :
    (recovered.present [0x40#8, 0x06#8]).cfg.wf = true ∧
    (recovered.present [0x40#8, 0x06#8]).port = .command [0x40#8, 0x06#8] :: [] ∧
    decode (recovered.present [0x40#8, 0x06#8]).cfg [0x40#8, 0x06#8] = .ok (.rd 6#8) := by decide

theorem test_witness_OpcodeMapExecutesTheNineCommands :
    recovered.cfg.wf = true ∧ frameA.length = (15#8).toNat ∧ (15#8).toNat ≤ recovered.cfg.maxFrame ∧
    (List.replicate 32 0#8).length = (32#8).toNat ∧ (32#8).toNat ≤ recovered.cfg.maxFrame := by decide

/-- One command for each outcome: illegal, of the wrong length, too long, executed. -/
theorem test_witness_DecodingStopsAtTheFirstFailure :
    recovered.cfg.wf = true ∧ decode recovered.cfg [0x41#8] = .error (.illegalOpcode 0x41#8) ∧
    decode recovered.cfg [0x40#8] = .error (.badLength 0x40#8) ∧
    decode recovered.cfg (0x20#8 :: 33#8 :: List.replicate 33 0#8) = .error (.frameTooLong 33#8) ∧
    decode recovered.cfg (0x20#8 :: 32#8 :: List.replicate 32 0#8) = .ok (.fpParse (List.replicate 32 0#8)) := by decide

theorem test_witness_RefusedCommandsChangeNothing :
    step ((started 3#32).present [0x34#8, 0#8, 0#8]) = .next { started 3#32 with response := some ⟨.errState, 0#32⟩ } ∧
    0x80 ≤ ResponseCode.errState.byte.toNat := ⟨rfl, by decide⟩

theorem test_witness_EveryCommandIsAnswered : recovered.cfg.wf = true := by decide

theorem test_witness_ResetEventAndWaiting :
    ({ recovered with port := [.reset] } : State).cfg.wf = true ∧
    ({ recovered with port := [.reset] } : State).port = .reset :: [] ∧ recovered.port = [] := by decide

theorem test_witness_IllFormedParametersAreRefused :
    ({ recovered with cfg := { Config.standard with marker := [] } } : State).cfg.wf = false := by decide

theorem test_witness_DecodeOfEncode :
    Config.standard.wf = true ∧ (Instr.rxFrame frameA).wf Config.standard = true ∧
    (Instr.rxFrame frameA).isCommand = true ∧
    (Instr.frameF0 0xFF#8 0#8 (List.replicate 22 0#8)).wf Config.standard = true ∧
    (Instr.frameF0 0xFF#8 0#8 (List.replicate 22 0#8)).isCommand = false := by decide

theorem test_witness_EncodeOfDecode :
    decode Config.standard [0x34#8, 0xFF#8, 0x00#8] = .ok (.rxByte 0xFF00#16) := by decide

theorem test_witness_InvariantsHoldAtReset : Config.standard.wf = true := by decide

/-- A collecting cycle that meets the invariants, and a step from it (the frame completes it). -/
theorem test_witness_EveryStepKeepsTheInvariants :
    ((counted 2#8 [(0#8, [0x41#8])]).present [0x31#8, 6#8, 0x30#8, 0x35#8, 0x39#8, 0x34#8, 0x37#8, 0x39#8]).Inv ∧
    nextOf (step ((counted 2#8 [(0#8, [0x41#8])]).present
      [0x31#8, 6#8, 0x30#8, 0x35#8, 0x39#8, 0x34#8, 0x37#8, 0x39#8])) =
      some { counted 2#8 [] with st := .complete, outcome := .success, out := [0x41#8],
                                 response := some ⟨.ok, 0x2B#32⟩ } := by
  refine ⟨⟨by decide, by decide, by decide, by decide, by decide, by decide, rfl, by decide, by decide, by decide,
    by decide, by decide, ?_⟩, by decide⟩
  intro i t h
  change (if i = 0#8 then some [0x41#8] else none) = some t at h
  split at h
  · cases h
    decide
  · cases h

theorem test_witness_TransitionTableIsComplete :
    recovered.cfg.wf = true ∧ decode recovered.cfg [] = .error .emptyCommand ∧
    (nextOf (exec (.rxStart 0#32) recovered)).isSome = true := by decide

theorem test_witness_CrcBelongsToTheChecksumEngine :
    nextOf (step (recovered.present [0x32#8])) = some { recovered with response := some ⟨.ignored, 0x2B#32⟩ } ∧
    decode recovered.cfg [0x32#8] = .ok .rxTick ∧ isCrcCommand .rxTick = false ∧ Instr.rxTick ≠ .rd 6#8 := by decide

theorem test_witness_FlagsAreStickyAndInert :
    Instr.frameF0 1#8 0#8 [] ≠ .rxAbort ∧ (∀ d, Instr.frameF0 1#8 0#8 [] ≠ .rxStart d) ∧
    (counted 3#8 [(0#8, []), (1#8, [])]).stale = false ∧ (counted 3#8 [(0#8, []), (1#8, [])]).malf = false ∧
    (counted 3#8 [(0#8, []), (1#8, [])]).slots.wf ∧
    (nextOf (exec (.frameF0 1#8 0#8 []) (counted 3#8 [(0#8, []), (1#8, [])]))).map State.stale = some true := by
  refine ⟨by decide, by simp, by decide, by decide, by decide, by decide⟩

theorem test_witness_SlotContentsAreHidden :
    List.length ([(7#8, [1#8])] : SlotMemory) = (collecting [(0#8, [])]).slots.length ∧
    (∀ raw, Instr.rd 2#8 ≠ .rxFrame raw) ∧ (Instr.rd 2#8).isCommand = true ∧
    (nextOf (exec (.rd 2#8) (collecting [(0#8, [])]))).isSome = true := by
  refine ⟨by decide, by simp, by decide, by decide⟩

theorem test_witness_OccupancyCountsTheValidSlots :
    (collecting [(0#8, []), (255#8, [])]).slots.wf ∧ (collecting [(0#8, []), (255#8, [])]).occ = 2 := by decide

theorem test_witness_ReadsAndStartsAreIdempotent :
    exec (.rd 0#8) recovered = .next { recovered with response := some ⟨.ok, recovered.status⟩ } := rfl

theorem test_witness_ParametersAreNotRunTimeWritable : step recovered = .next recovered := rfl

theorem test_witness_NoPartialPayloadIsReadable : State.reset.Inv ∧ State.reset.outcome ≠ .success := by
  refine ⟨⟨by decide, by decide, by decide, by decide, by decide, by decide, rfl, by decide, by decide, by decide,
    by decide, by decide, ?_⟩, by decide⟩
  intro i t h
  cases h

theorem test_witness_PackedTransferIsWellFormed :
    Config.standard.wf = true ∧ Config.standard.markerLen + 4 ≤ 10 ∧ 10 ≤ 255 ∧
    (pack Config.standard 10 []).toOption.map List.length = some 2 := by decide

theorem test_witness_PackedTransferRoundTrip :
    (started 0#32).cfg.wf = true ∧ (started 0#32).cfg.markerLen + 4 ≤ 32 ∧ 32 ≤ (started 0#32).cfg.maxFrame ∧
    pack (started 0#32).cfg 32 [0x41#8] = .ok [frameA] := by decide

/-- The one frame of E1 after as many ticks as the timeout allows. -/
theorem test_witness_ArrivalOrderIsIrrelevant :
    recovered.cfg.wf = true ∧ recovered.cfg.markerLen + 4 ≤ 32 ∧ 32 ≤ recovered.cfg.maxFrame ∧
    pack recovered.cfg 32 [0x41#8] = .ok [frameA] ∧
    (∀ i ∈ [Instr.rxTick, .rxTick], i = .rxTick ∨ ∃ f ∈ [frameA], i = .rxFrame f) ∧ frameA ∈ [frameA] ∧
    (∀ f ∈ [frameA], Instr.rxFrame f ∈ [Instr.rxTick, .rxTick] ∨ f = frameA) ∧
    Instr.rxFrame frameA ∉ [Instr.rxTick, .rxTick] ∧
    ticksBounded (2#32).toNat 0 [Instr.rxTick, .rxTick] = true := by
  refine ⟨by decide, by decide, by decide, by decide, by simp, by simp, by simp, by simp, by decide⟩

theorem test_witness_OneFlippedPayloadBitIsAMismatch :
    0 < [0x41#8].length ∧
    SlotMemory.concat [(0#8, [0x40#8]), (1#8, [0x39#8, 0x34#8, 0x37#8, 0x39#8])] =
      [0x41#8].set 0 (0x41#8 ^^^ (1#8 <<< 0)) ++ toHex4 true (checksum [0x41#8]) := by decide

end Sys2Proof.Tests
end

section
/-! Proofs of the statements of 00_scope.md: an ill-formed parameter set is refused (R6, U10), and the parameters are
not run-time writable (R5), two of them not even read (R58, U16). -/

namespace Sys2Proof.Machine

/-! ### The step, one equation per content of the port -/

section StepEquations

variable {s t : State} {bytes : List Byte} {rest : List PortEvent}

/-- R6, U10: nothing runs under an ill-formed parameter set. -/
theorem step_of_not_wf (h : s.cfg.wf = false) : step s = .refused .illFormedParameters := by
  unfold step
  exact if_neg (by simp [h])

/-- R161: nothing presented, nothing done. -/
theorem step_of_port_nil (hw : s.cfg.wf = true) (hp : s.port = []) : step s = .next s := by
  rw [step_eq_fetch hw, State.fetch, hp]

/-- R160: reset. -/
theorem step_of_port_reset (hw : s.cfg.wf = true) (hp : s.port = .reset :: rest) :
    step s = .next { s with port := rest }.applyReset := by
  rw [step_eq_fetch hw, State.fetch, hp]

/-- R51, R150: a command that does not decode is answered with its error code. -/
theorem step_of_decode_error {e : CommandError} (hw : s.cfg.wf = true) (hp : s.port = .command bytes :: rest)
    (hd : decode s.cfg bytes = .error e) : step s = respondError (errorCode e) { s with port := rest } := by
  simp only [step_eq_fetch hw, State.fetch, hp, hd]

/-- R45: a command that decodes has its instruction's effect. -/
theorem step_of_decode_ok {i : Instr} (hw : s.cfg.wf = true) (hp : s.port = .command bytes :: rest)
    (hd : decode s.cfg bytes = .ok i) : step s = exec i { s with port := rest } := by
  simp only [step_eq_fetch hw, State.fetch, hp, hd]

/-- All that a step which answers a next state can have done. -/
theorem step_cases (h : step s = .next t) :
    (s.port = [] ∧ t = s) ∨
    (∃ rest, s.port = .reset :: rest ∧ t = { s with port := rest }.applyReset) ∨
    (∃ bytes rest e, s.port = .command bytes :: rest ∧ decode s.cfg bytes = .error e ∧
      t = { s with port := rest, response := some ⟨errorCode e, 0#32⟩ }) ∨
    (∃ bytes rest i, s.port = .command bytes :: rest ∧ decode s.cfg bytes = .ok i ∧
      exec i { s with port := rest } = .next t) := by
  have hw := wf_of_step h
  match hp : s.port with
  | [] =>
    rw [step_of_port_nil hw hp] at h
    cases h
    exact .inl ⟨rfl, rfl⟩
  | .reset :: rest =>
    rw [step_of_port_reset hw hp] at h
    cases h
    exact .inr (.inl ⟨rest, rfl, rfl⟩)
  | .command bytes :: rest =>
    cases hd : decode s.cfg bytes with
    | error e =>
      rw [step_of_decode_error hw hp hd] at h
      cases h
      exact .inr (.inr (.inl ⟨bytes, rest, e, rfl, hd, rfl⟩))
    | ok i =>
      rw [step_of_decode_ok hw hp hd] at h
      exact .inr (.inr (.inr ⟨bytes, rest, i, rfl, hd, h⟩))

end StepEquations

/-! ### R5: the block writes no parameter -/

section ParametersKept

variable {s t : State}

@[simp] theorem State.collect_cfg (s : State) (count : Option Byte) (i : Byte) (slice : List Byte) :
    (s.collect count i slice).cfg = s.cfg := by
  rw [(s.collect_frame count i slice).1]

@[simp] theorem State.finish_cfg (s : State) : s.finish.cfg = s.cfg := by
  rcases s.finish_cases with ⟨body, -, h⟩ | ⟨-, h⟩ <;> rw [h]

@[simp] theorem State.accept_cfg (s : State) (count : Option Byte) (i : Byte) (slice : List Byte) :
    (s.accept count i slice).cfg = s.cfg := by
  rcases s.accept_cases count i slice with ⟨-, h⟩ | ⟨-, h⟩ <;> simp [h]

@[simp] theorem State.countTick_cfg (s : State) : s.countTick.cfg = s.cfg := by
  rcases s.countTick_cases with ⟨-, h⟩ | ⟨-, h⟩ <;> rw [h]

/-- An answer keeps the parameter set of the state it is given in. -/
theorem cfg_of_onlyAnswers {u : State} {c : ResponseCode} {d : Word32} (hu : u.cfg = s.cfg)
    (h : onlyAnswers u c d = .next t) : t.cfg = s.cfg := by
  rwa [(onlyAnswers_next_iff u t c d).mp h]

theorem acceptFrame_cfg {count : Option Byte} {i : Byte} {slice : List Byte}
    (h : acceptFrame count i slice s = .next t) : t.cfg = s.cfg := by
  rcases acceptFrame_cases count i slice s with ⟨-, e⟩ | ⟨-, e⟩
  · exact cfg_of_onlyAnswers (s.accept_cfg _ _ _) (e.symm.trans h)
  · exact cfg_of_onlyAnswers rfl (e.symm.trans h)

theorem execRxFrame_cfg {raw : List Byte} (h : execRxFrame raw s = .next t) : t.cfg = s.cfg := by
  rcases execRxFrame_cases raw s with ⟨-, e⟩ | ⟨-, -, e⟩ | ⟨p, -, -, e⟩
  · exact cfg_of_onlyAnswers rfl (e.symm.trans h)
  · exact cfg_of_onlyAnswers (u := { s with malf := true }) rfl (e.symm.trans h)
  · exact cfg_of_onlyAnswers (s.accept_cfg _ _ _) (e.symm.trans h)

theorem execRxTick_cfg (h : execRxTick s = .next t) : t.cfg = s.cfg := by
  rcases execRxTick_cases s with ⟨-, e⟩ | ⟨-, -, e⟩ | ⟨-, -, e⟩
  · exact cfg_of_onlyAnswers s.countTick_cfg (e.symm.trans h)
  · exact cfg_of_onlyAnswers rfl (e.symm.trans h)
  · exact cfg_of_onlyAnswers rfl (e.symm.trans h)

theorem execRxByte_cfg {k : Word16} (h : execRxByte k s = .next t) : t.cfg = s.cfg := by
  rcases execRxByte_cases k s with ⟨b, -, -, e⟩ | ⟨-, -, e⟩ | ⟨-, e⟩ <;>
    exact cfg_of_onlyAnswers rfl (e.symm.trans h)

theorem execRd_cfg {r : Byte} (h : execRd r s = .next t) : t.cfg = s.cfg := by
  rcases execRd_cases r s with ⟨d, -, e⟩ | ⟨-, e⟩ <;> exact cfg_of_onlyAnswers rfl (e.symm.trans h)

/-- R5: no instruction writes the parameter set. -/
theorem exec_cfg {i : Instr} (h : exec i s = .next t) : t.cfg = s.cfg := by
  cases i with
  | crcInit => exact cfg_of_onlyAnswers (u := { s with crc := Config.crcInit }) rfl h
  | crcByte b => exact cfg_of_onlyAnswers (u := { s with crc := upd s.crc b }) rfl h
  | fpParse raw => exact cfg_of_onlyAnswers rfl h
  | rxStart limit => exact cfg_of_onlyAnswers (s.eraseCycle_cfg .idle limit) h
  | rxFrame raw => exact execRxFrame_cfg h
  | rxTick => exact execRxTick_cfg h
  | rxAbort => exact cfg_of_onlyAnswers (s.eraseCycle_cfg .off 0#32) h
  | rxByte k => exact execRxByte_cfg h
  | rd r => exact execRd_cfg h
  | frameF0 c k slice => exact acceptFrame_cfg (count := some c) h
  | frameFN k slice => exact acceptFrame_cfg (count := none) h

/-- R5: no step writes the parameter set. -/
theorem step_cfg (h : step s = .next t) : t.cfg = s.cfg := by
  rcases step_cases h with ⟨-, rfl⟩ | ⟨rest, -, rfl⟩ | ⟨bytes, rest, e, -, -, rfl⟩ | ⟨bytes, rest, i, -, -, h⟩
  · rfl
  · rfl
  · rfl
  · exact exec_cfg (s := { s with port := rest }) h

end ParametersKept

/-! ### R58, U16: the block reads neither `HEX_UPPER` nor `TICK_PERIOD` -/

/-- The state with other values of the two parameters that no step reads. -/
def State.withUnread (upper : Bool) (period : Nat) (s : State) : State :=
  { s with cfg := { s.cfg with hexUpper := upper, tickPeriod := period } }

/-- A step's answer with its next state, if it has one, changed by `f`. -/
def mapNext (f : State → State) : StepResult → StepResult
  | .next s => .next (f s)
  | .fault r => .fault r
  | .refused r => .refused r

section ParametersUnread

variable (upper : Bool) (period : Nat) (s : State)

@[simp] theorem State.withUnread_st : (s.withUnread upper period).st = s.st := rfl
@[simp] theorem State.withUnread_outcome : (s.withUnread upper period).outcome = s.outcome := rfl
@[simp] theorem State.withUnread_slots : (s.withUnread upper period).slots = s.slots := rfl
@[simp] theorem State.cycleActive_withUnread : (s.withUnread upper period).cycleActive = s.cycleActive := rfl
@[simp] theorem State.tickCounted_withUnread : (s.withUnread upper period).tickCounted = s.tickCounted := rfl
@[simp] theorem State.outByte_withUnread (k : Word16) : (s.withUnread upper period).outByte k = s.outByte k := rfl
@[simp] theorem State.statusRegister_withUnread (r : Byte) :
    (s.withUnread upper period).statusRegister r = s.statusRegister r := rfl

/-- R6 puts no condition on the two parameters. -/
@[simp] theorem wf_withUnread : (s.withUnread upper period).cfg.wf = s.cfg.wf := rfl

/-- R51: of the parameters the command decoder reads `MAX_FRAME` only. -/
@[simp] theorem decode_withUnread (bytes : List Byte) :
    decode (s.withUnread upper period).cfg bytes = decode s.cfg bytes := rfl

@[simp] theorem parseFrame_withUnread (raw : List Byte) :
    parseFrame (s.withUnread upper period).cfg raw = parseFrame s.cfg raw :=
  parseFrame_marker_only _ _ raw rfl

/-- A response shows neither of the two parameters. -/
theorem respond_withUnread (c : ResponseCode) (d : Word32) :
    respond c d (s.withUnread upper period) = mapNext (State.withUnread upper period) (respond c d s) := rfl

theorem respondStatus_withUnread (c : ResponseCode) :
    respondStatus c (s.withUnread upper period) = mapNext (State.withUnread upper period) (respondStatus c s) := rfl

theorem respondError_withUnread (c : ResponseCode) :
    respondError c (s.withUnread upper period) = mapNext (State.withUnread upper period) (respondError c s) := rfl

theorem State.collect_withUnread (count : Option Byte) (i : Byte) (slice : List Byte) :
    (s.withUnread upper period).collect count i slice = (s.collect count i slice).withUnread upper period := by
  cases h : s.cfg.staleOrder with
  | checkThenRecord =>
    rw [State.collect_checkThenRecord h, State.collect_checkThenRecord (s := s.withUnread upper period) h,
      State.learnCount_eq, State.learnCount_eq]
    rfl
  | recordThenCheck =>
    rw [State.collect_recordThenCheck h, State.collect_recordThenCheck (s := s.withUnread upper period) h,
      State.learnCount_eq, State.learnCount_eq]
    rfl

theorem State.finish_withUnread : (s.withUnread upper period).finish = s.finish.withUnread upper period := by
  simp only [State.finish, State.withUnread_slots]
  cases validate s.slots.concat <;> rfl

theorem State.finishIfComplete_withUnread :
    (s.withUnread upper period).finishIfComplete = s.finishIfComplete.withUnread upper period := by
  have ht : (s.withUnread upper period).completionTest = s.completionTest := rfl
  simp only [State.finishIfComplete, ht, State.finish_withUnread, apply_ite (State.withUnread upper period)]

theorem State.accept_withUnread (count : Option Byte) (i : Byte) (slice : List Byte) :
    (s.withUnread upper period).accept count i slice = (s.accept count i slice).withUnread upper period := by
  unfold State.accept
  rw [State.collect_withUnread, ← State.finishIfComplete_withUnread]
  rfl

theorem State.countTick_withUnread :
    (s.withUnread upper period).countTick = s.countTick.withUnread upper period := by
  simp only [State.countTick, apply_ite (State.withUnread upper period)]
  rfl

theorem acceptFrame_withUnread (count : Option Byte) (i : Byte) (slice : List Byte) :
    acceptFrame count i slice (s.withUnread upper period) =
      mapNext (State.withUnread upper period) (acceptFrame count i slice s) := by
  simp only [acceptFrame, State.cycleActive_withUnread, State.accept_withUnread, respondStatus_withUnread,
    apply_ite (mapNext _)]

theorem execRxFrame_withUnread (raw : List Byte) :
    execRxFrame raw (s.withUnread upper period) = mapNext (State.withUnread upper period) (execRxFrame raw s) := by
  simp only [execRxFrame, State.cycleActive_withUnread, parseFrame_withUnread, acceptFrame_withUnread,
    respondStatus_withUnread, apply_ite (mapNext _)]
  cases parseFrame s.cfg raw <;> rfl

theorem execRxTick_withUnread :
    execRxTick (s.withUnread upper period) = mapNext (State.withUnread upper period) (execRxTick s) := by
  simp only [execRxTick, State.tickCounted_withUnread, State.withUnread_st, State.countTick_withUnread,
    respondStatus_withUnread, apply_ite (mapNext _)]
  rfl

theorem execRxByte_withUnread (k : Word16) :
    execRxByte k (s.withUnread upper period) = mapNext (State.withUnread upper period) (execRxByte k s) := by
  simp only [execRxByte, State.withUnread_outcome, State.outByte_withUnread, respond_withUnread,
    respondError_withUnread, apply_ite (mapNext _)]
  cases s.outByte k <;> rfl

theorem execRd_withUnread (r : Byte) :
    execRd r (s.withUnread upper period) = mapNext (State.withUnread upper period) (execRd r s) := by
  simp only [execRd, State.statusRegister_withUnread]
  cases s.statusRegister r <;> rfl

/-- R58, U16: no instruction reads `HEX_UPPER` or `TICK_PERIOD`. -/
theorem exec_withUnread (i : Instr) :
    exec i (s.withUnread upper period) = mapNext (State.withUnread upper period) (exec i s) := by
  cases i with
  | crcInit => rfl
  | crcByte b => rfl
  | fpParse raw => simp only [exec, execFpParse, parseFrame_withUnread, respond_withUnread]
  | rxStart limit => rfl
  | rxFrame raw => exact execRxFrame_withUnread upper period s raw
  | rxTick => exact execRxTick_withUnread upper period s
  | rxAbort => rfl
  | rxByte k => exact execRxByte_withUnread upper period s k
  | rd r => exact execRd_withUnread upper period s r
  | frameF0 c k slice => exact acceptFrame_withUnread upper period s (some c) k slice
  | frameFN k slice => exact acceptFrame_withUnread upper period s none k slice

/-- R58, U16: with other values of the two parameters a step goes to the same state but for these two. -/
theorem step_withUnread {s t : State} (h : step s = .next t) :
    step (s.withUnread upper period) = .next (t.withUnread upper period) := by
  have hw : (s.withUnread upper period).cfg.wf = true := wf_of_step (s := s) h
  rcases step_cases h with
    ⟨hp, rfl⟩ | ⟨rest, hp, rfl⟩ | ⟨bytes, rest, e, hp, hd, rfl⟩ | ⟨bytes, rest, i, hp, hd, he⟩
  · exact step_of_port_nil hw hp
  · exact step_of_port_reset hw hp
  · exact step_of_decode_error hw hp hd
  · calc step (s.withUnread upper period)
        = exec i (State.withUnread upper period { s with port := rest }) := step_of_decode_ok hw hp hd
      _ = mapNext (State.withUnread upper period) (.next t) := by rw [exec_withUnread, he]

end ParametersUnread

/-! ### The statements -/

/-- Settles O36: the step tests the parameter set before it takes anything from the port. -/
theorem illFormedParametersAreRefused : Obligations.IllFormedParametersAreRefused := by
  unfold Obligations.IllFormedParametersAreRefused
  exact fun _ h => step_of_not_wf h

/-- Settles O48, by cases on what the step takes from the port and then on the instruction. -/
theorem parametersAreNotRunTimeWritable : Obligations.ParametersAreNotRunTimeWritable := by
  unfold Obligations.ParametersAreNotRunTimeWritable
  intro s t h
  have hcfg : t.cfg = s.cfg := step_cfg h
  refine ⟨hcfg, fun upper period => ?_⟩
  simpa only [State.withUnread, hcfg] using step_withUnread upper period h

end Sys2Proof.Machine
end

section
/-! Proofs of the statements of 10_state.md. Every instruction is brought into one form first, its effect on the state
followed by its answer; each proof then speaks of the effect or of the answer. -/

namespace Sys2Proof.Machine

/-! ### An instruction is an effect followed by an answer -/

/-- R98, R109: what a frame that has been parsed does to the state. -/
def State.receive (s : State) (count : Option Byte) (index : Byte) (slice : List Byte) : State :=
  if s.cycleActive then s.accept count index slice else s

/-- What an instruction does to the state before it answers. -/
def effect : Instr → State → State
  | .crcInit, s => { s with crc := Config.crcInit }
  | .crcByte b, s => { s with crc := upd s.crc b }
  | .fpParse _, s => s
  | .rxStart t, s => s.eraseCycle .idle t
  | .rxFrame raw, s =>
    match parseFrame s.cfg raw with
    | none => { s with malf := s.malf || s.cycleActive }
    | some p => s.receive p.count p.index (parsedSlice p raw)
  | .rxTick, s => if s.tickCounted then s.countTick else s
  | .rxAbort, s => s.eraseCycle .off 0#32
  | .rxByte _, s => s
  | .rd _, s => s
  | .frameF0 c k slice, s => s.receive (some c) k slice
  | .frameFN k slice, s => s.receive none k slice

/-- R98, R99, R109: the code with which a command that answers STATUS answers. -/
def statusCode : Instr → State → ResponseCode
  | .rxFrame raw, s =>
    if s.cycleActive then if (parseFrame s.cfg raw).isSome then .ok else .discarded else .ignored
  | .rxTick, s | .frameF0 _ _ _, s | .frameFN _ _, s => if s.cycleActive then .ok else .ignored
  | _, _ => .ok

/-- What an instruction answers. -/
def answer : Instr → State → Response
  | .crcInit, _ => ⟨.ok, Config.crcInit.setWidth 32⟩
  | .crcByte b, s => ⟨.ok, (upd s.crc b).setWidth 32⟩
  | .fpParse raw, s => ⟨.ok, parseDatum (parseFrame s.cfg raw)⟩
  | .rxByte k, s =>
    if s.outcome = .success then
      match s.outByte k with
      | some b => ⟨.ok, b.setWidth 32⟩
      | none => ⟨.errRange, 0#32⟩
    else ⟨.errState, 0#32⟩
  | .rd r, s =>
    match s.statusRegister r with
    | some d => ⟨.ok, d⟩
    | none => ⟨.errRange, 0#32⟩
  | i, s => ⟨statusCode i s, (effect i s).status⟩

section ExecForm

variable (s : State)

theorem State.receive_active (h : s.cycleActive = true) (count : Option Byte) (k : Byte) (slice : List Byte) :
    s.receive count k slice = s.accept count k slice := if_pos h

theorem State.receive_inactive (h : s.cycleActive = false) (count : Option Byte) (k : Byte) (slice : List Byte) :
    s.receive count k slice = s := if_neg (by simp [h])

theorem State.cycleActive_of_tickCounted (h : s.tickCounted = true) : s.cycleActive = true := by
  rw [State.tickCounted_iff] at h
  rw [State.cycleActive_iff]
  tauto

theorem acceptFrame_eq (count : Option Byte) (k : Byte) (slice : List Byte) :
    acceptFrame count k slice s =
      respondStatus (if s.cycleActive then .ok else .ignored) (s.receive count k slice) := by
  unfold acceptFrame State.receive
  split <;> rfl

theorem execRxFrame_eq (raw : List Byte) :
    execRxFrame raw s = respondStatus (statusCode (.rxFrame raw) s) (effect (.rxFrame raw) s) := by
  rcases execRxFrame_cases raw s with ⟨ha, h⟩ | ⟨ha, hp, h⟩ | ⟨p, ha, hp, h⟩
  · have he : effect (.rxFrame raw) s = s := by
      simp only [effect, ha, Bool.or_false, State.receive_inactive s ha]
      split <;> rfl
    rw [h, he, statusCode, ha]
    rfl
  · simp [h, effect, statusCode, ha, hp, respondStatus_eq]
  · simp [h, effect, statusCode, ha, hp, respondStatus_eq, State.receive_active, parsedSlice]

theorem execRxTick_eq : execRxTick s = respondStatus (statusCode .rxTick s) (effect .rxTick s) := by
  rcases execRxTick_cases s with ⟨hc, h⟩ | ⟨hc, hi, h⟩ | ⟨hc, hi, h⟩
  · simp [h, effect, statusCode, hc, s.cycleActive_of_tickCounted hc, respondStatus_eq]
  · have ha : s.cycleActive = true := s.cycleActive_iff.mpr (.inl hi)
    simp [h, effect, statusCode, hc, ha, respondStatus_eq]
  · have ha : s.cycleActive = false := by
      rw [← Bool.not_eq_true, s.cycleActive_iff]
      rw [← Bool.not_eq_true, s.tickCounted_iff] at hc
      tauto
    simp [h, effect, statusCode, hc, ha, respondStatus_eq]

/-- Every instruction has its effect and gives its answer. -/
theorem exec_eq (i : Instr) : exec i s = .next { effect i s with response := some (answer i s) } := by
  cases i with
  | crcInit => rfl
  | crcByte b => rfl
  | fpParse raw => rfl
  | rxStart t => rfl
  | rxFrame raw => exact execRxFrame_eq s raw
  | rxTick => exact execRxTick_eq s
  | rxAbort => rfl
  | rxByte k =>
    rcases execRxByte_cases k s with ⟨b, ho, hb, h⟩ | ⟨ho, hb, h⟩ | ⟨ho, h⟩ <;>
      simp [exec, effect, answer, onlyAnswers, State.outByte, *]
  | rd r =>
    rcases execRd_cases r s with ⟨d, hd, h⟩ | ⟨hd, h⟩ <;> simp [exec, effect, answer, onlyAnswers, hd, h]
  | frameF0 c k slice => exact acceptFrame_eq s (some c) k slice
  | frameFN k slice => exact acceptFrame_eq s none k slice

theorem eq_of_exec {s t : State} {i : Instr} (h : exec i s = .next t) :
    t = { effect i s with response := some (answer i s) } := by
  rw [exec_eq] at h
  cases h
  rfl

end ExecForm

/-! ### `crc`, `malf` and `stale` depend on nothing else's change and change nothing else -/

/-- The state with other values of the checksum register and of the two flags. -/
def State.withCrcFlags (c : Word16) (a b : Bool) (s : State) : State := { s with crc := c, malf := a, stale := b }

/-- R11: the checksum register after an instruction, from its value before. -/
def crcAfter (c : Word16) : Instr → Word16
  | .crcInit => Config.crcInit
  | .crcByte b => upd c b
  | _ => c

/-- R21: the instruction clears the two flags. -/
def clearsFlags : Instr → Bool
  | .rxStart _ => true
  | .rxAbort => true
  | .crcInit | .crcByte _ | .fpParse _ | .rxFrame _ | .rxTick | .rxByte _ | .rd _ => false
  | .frameF0 _ _ _ | .frameFN _ _ => false

/-- R99: the instruction is a malformed frame in an active cycle. -/
def setsMalf : Instr → State → Bool
  | .rxFrame raw, s => (parseFrame s.cfg raw).isNone && s.cycleActive
  | _, _ => false

/-- R100, R101, R104: the count conflicts with the recorded one at the point where `Accept` tests it. -/
def State.staleAtTest (s : State) (count : Option Byte) (k : Byte) (slice : List Byte) : Bool :=
  conflicts s count (match s.cfg.staleOrder with
    | .checkThenRecord => s.occ
    | .recordThenCheck => (s.recordSlice k slice).occ)

/-- R104: the instruction is an accepted frame that takes the stale-transfer reset. -/
def setsStale : Instr → State → Bool
  | .rxFrame raw, s =>
    match parseFrame s.cfg raw with
    | none => false
    | some p => s.cycleActive && s.staleAtTest p.count p.index (parsedSlice p raw)
  | .frameF0 c k slice, s => s.cycleActive && s.staleAtTest (some c) k slice
  | .frameFN k slice, s => s.cycleActive && s.staleAtTest none k slice
  | _, _ => false

section CrcFlags

variable (c : Word16) (a b : Bool) (s : State)

@[simp] theorem State.withCrcFlags_cfg : (s.withCrcFlags c a b).cfg = s.cfg := rfl
@[simp] theorem State.withCrcFlags_slots : (s.withCrcFlags c a b).slots = s.slots := rfl
@[simp] theorem State.withCrcFlags_cycleActive : (s.withCrcFlags c a b).cycleActive = s.cycleActive := rfl
@[simp] theorem State.withCrcFlags_tickCounted : (s.withCrcFlags c a b).tickCounted = s.tickCounted := rfl

/-- R104: of the three fields collecting writes `stale` only, by the stale test. -/
theorem State.collect_withCrcFlags (count : Option Byte) (k : Byte) (slice : List Byte) :
    (s.withCrcFlags c a b).collect count k slice =
      (s.collect count k slice).withCrcFlags c a (b || s.staleAtTest count k slice) := by
  unfold State.staleAtTest
  cases h : s.cfg.staleOrder with
  | checkThenRecord =>
    rw [State.collect_checkThenRecord h, State.collect_checkThenRecord (s := s.withCrcFlags c a b) h,
      State.learnCount_eq, State.learnCount_eq]
    rfl
  | recordThenCheck =>
    rw [State.collect_recordThenCheck h, State.collect_recordThenCheck (s := s.withCrcFlags c a b) h,
      State.learnCount_eq, State.learnCount_eq]
    rfl

theorem State.finish_withCrcFlags : (s.withCrcFlags c a b).finish = s.finish.withCrcFlags c a b := by
  simp only [State.finish, State.withCrcFlags_slots]
  cases validate s.slots.concat <;> rfl

theorem State.finishIfComplete_withCrcFlags :
    (s.withCrcFlags c a b).finishIfComplete = s.finishIfComplete.withCrcFlags c a b := by
  have ht : (s.withCrcFlags c a b).completionTest = s.completionTest := rfl
  simp only [State.finishIfComplete, ht, State.finish_withCrcFlags, apply_ite (State.withCrcFlags c a b)]

theorem State.accept_withCrcFlags (count : Option Byte) (k : Byte) (slice : List Byte) :
    (s.withCrcFlags c a b).accept count k slice =
      (s.accept count k slice).withCrcFlags c a (b || s.staleAtTest count k slice) := by
  unfold State.accept
  rw [State.collect_withCrcFlags, ← State.finishIfComplete_withCrcFlags]
  rfl

theorem State.receive_withCrcFlags (count : Option Byte) (k : Byte) (slice : List Byte) :
    (s.withCrcFlags c a b).receive count k slice =
      (s.receive count k slice).withCrcFlags c a (b || (s.cycleActive && s.staleAtTest count k slice)) := by
  cases h : s.cycleActive with
  | false =>
    rw [State.receive_inactive _ h, State.receive_inactive (s.withCrcFlags c a b) h, Bool.false_and, Bool.or_false]
  | true =>
    rw [State.receive_active _ h, State.receive_active (s.withCrcFlags c a b) h, State.accept_withCrcFlags,
      Bool.true_and]

theorem State.countTick_withCrcFlags : (s.withCrcFlags c a b).countTick = s.countTick.withCrcFlags c a b := by
  simp only [State.countTick, apply_ite (State.withCrcFlags c a b)]
  rfl

/-- R11, R21: what every instruction makes of the three fields, and that its effect on all others does not depend on
them. -/
theorem effect_withCrcFlags (i : Instr) :
    effect i (s.withCrcFlags c a b) =
      (effect i s).withCrcFlags (crcAfter c i) (!clearsFlags i && (a || setsMalf i s))
        (!clearsFlags i && (b || setsStale i s)) := by
  cases i with
  | rxStart t => rfl
  | rxAbort => rfl
  | rxFrame raw =>
    simp only [effect, State.withCrcFlags_cfg, crcAfter, clearsFlags, setsMalf, setsStale]
    cases parseFrame s.cfg raw with
    | none => simp [State.withCrcFlags, State.cycleActive]
    | some p => simp [State.receive_withCrcFlags]
  | rxTick =>
    simp only [effect, State.withCrcFlags_tickCounted, State.countTick_withCrcFlags, crcAfter, clearsFlags, setsMalf,
      setsStale, Bool.not_false, Bool.true_and, Bool.or_false, apply_ite (State.withCrcFlags c a b)]
  | frameF0 | frameFN =>
    simp only [effect, State.receive_withCrcFlags, crcAfter, clearsFlags, setsMalf, setsStale, Bool.not_false,
      Bool.true_and, Bool.or_false]
  | crcInit | crcByte | fpParse | rxByte | rd =>
    simp [effect, State.withCrcFlags, crcAfter, clearsFlags, setsMalf, setsStale]

theorem effect_crc (i : Instr) : (effect i s).crc = crcAfter s.crc i :=
  congrArg State.crc (effect_withCrcFlags s.crc s.malf s.stale s i)

theorem effect_malf (i : Instr) : (effect i s).malf = (!clearsFlags i && (s.malf || setsMalf i s)) :=
  congrArg State.malf (effect_withCrcFlags s.crc s.malf s.stale s i)

theorem effect_stale (i : Instr) : (effect i s).stale = (!clearsFlags i && (s.stale || setsStale i s)) :=
  congrArg State.stale (effect_withCrcFlags s.crc s.malf s.stale s i)

end CrcFlags

end Sys2Proof.Machine
end

section
/-! The invariants of R29: they hold after reset, and every instruction's effect keeps them. -/

namespace Sys2Proof.Machine

section Invariants

variable {s : State}

/-- R29 speaks of the Reassembly Engine only: not of `crc`, the flags, the port or the response. -/
theorem State.Inv.outerFields (h : s.Inv) (c : Word16) (a b : Bool) (p : List PortEvent) (r : Option Response) :
    State.Inv { s with crc := c, malf := a, stale := b, port := p, response := r } :=
  { h with }

/-- R29 where a cycle's traces are erased. -/
theorem State.Inv.eraseCycle (hw : s.cfg.wf = true) {x : RxState} (hx : x = .off ∨ x = .idle) (t : Word32) :
    (s.eraseCycle x t).Inv where
  cfgWf := hw
  slotsWf := SlotMemory.wf_nil
  emptyOutsideCollecting _ := rfl
  occupiedInCollecting hc := by rcases hx with rfl | rfl <;> cases hc
  totalZeroUnlessValid _ := rfl
  unknownBeforeFrames _ := rfl
  paired := by rcases hx with rfl | rfl <;> rfl
  payloadOnlyOnSuccess ho := absurd rfl ho
  payloadBound := Nat.zero_le _
  timerWhileCollecting hc := by rcases hx with rfl | rfl <;> cases hc
  timerWhileIdle _ := by
    split
    · exact Nat.zero_le _
    · rfl
  notYetComplete hc := by rcases hx with rfl | rfl <;> cases hc
  sliceBound _ _ hr := by cases hr

/-- R29 where a cycle has ended: the buffer is empty and the outcome goes with the state. -/
theorem State.Inv.ended (hw : s.cfg.wf = true) (hm : s.slots = [])
    (hs : s.st = .complete ∨ s.st = .timedOut) (hp : pairingOk s.st s.outcome)
    (ht : s.expValid = false → s.expTotal = 0#8) (ho : s.out ≠ [] → s.outcome = .success)
    (hb : s.out.length ≤ 255 * (s.cfg.maxFrame - 2) - 4) : s.Inv where
  cfgWf := hw
  slotsWf := hm ▸ SlotMemory.wf_nil
  emptyOutsideCollecting _ := congrArg List.length hm
  occupiedInCollecting hc := by simp [hc] at hs
  totalZeroUnlessValid := ht
  unknownBeforeFrames hi := by rcases hs with hs | hs <;> simp [hs] at hi
  paired := hp
  payloadOnlyOnSuccess := ho
  payloadBound := hb
  timerWhileCollecting hc := by simp [hc] at hs
  timerWhileIdle hi := by simp [hi] at hs
  notYetComplete hc := by simp [hc] at hs
  sliceBound _ _ hr := by simp [hm] at hr

/-- R15: there is no outcome yet in an active cycle. -/
theorem State.Inv.outcome_of_active (h : s.Inv) (ha : s.cycleActive = true) : s.outcome = .none := by
  have hp := h.paired
  rcases s.cycleActive_iff.mp ha with hs | hs <;> rwa [hs] at hp

/-- R22: without the outcome SUCCESS there is no payload. -/
theorem State.Inv.out_eq_nil (h : s.Inv) (ho : s.outcome ≠ .success) : s.out = [] :=
  not_not.mp (mt h.payloadOnlyOnSuccess ho)

/-- R107, R108: a counted tick keeps the invariants. -/
theorem State.Inv.countTick (h : s.Inv) (hc : s.tickCounted = true) : s.countTick.Inv := by
  rcases s.countTick_cases with ⟨hle, e⟩ | ⟨-, e⟩ <;> rw [e]
  · exact { h with
      timerWhileCollecting := fun _ => Nat.le_of_not_lt hle
      timerWhileIdle := fun hi => by
        have hs : s.st = .idle := hi
        have hen : s.cfg.idleTimeoutEn = true := by simpa [hs] using s.tickCounted_iff.mp hc
        simpa [hen] using hle }
  · exact .ended h.cfgWf rfl (.inr rfl) rfl h.totalZeroUnlessValid (absurd rfl) (Nat.zero_le _)

/-! #### Accepting a frame -/

variable {count : Option Byte} {k : Byte} {slice : List Byte}

/-- Item 8 after a slice has been collected. -/
theorem State.Inv.length_le_of_mem_collect (h : s.Inv) (hl : slice.length ≤ s.cfg.maxFrame - 2)
    {e : Byte × List Byte} (he : e ∈ (s.collect count k slice).slots) : e.2.length ≤ s.cfg.maxFrame - 2 := by
  rcases State.mem_collect_slots he with rfl | he
  · exact hl
  · exact h.sliceBound _ _ (SlotMemory.read_of_mem h.slotsWf he)

theorem State.collect_expTotal : (s.collect count k slice).expTotal = count.getD s.expTotal := by
  rw [(s.collect_frame count k slice).1]

theorem State.collect_expValid : (s.collect count k slice).expValid = (s.expValid || count.isSome) := by
  rw [(s.collect_frame count k slice).1]

theorem State.collect_outcome : (s.collect count k slice).outcome = s.outcome := by
  rw [(s.collect_frame count k slice).1]

theorem State.collect_out : (s.collect count k slice).out = s.out := by
  rw [(s.collect_frame count k slice).1]

/-- Item 3, first half, after a count has been learnt. -/
theorem State.Inv.expTotal_collect (h : s.Inv) (hv : (s.collect count k slice).expValid = false) :
    (s.collect count k slice).expTotal = 0#8 := by
  simp only [State.collect_expValid, Bool.or_eq_false_iff, Option.isSome_eq_false_iff, Option.isNone_iff_eq_none] at hv
  rw [State.collect_expTotal, hv.2]
  exact h.totalZeroUnlessValid hv.1

/-- Item 2, second half: under `check_then_record` the slice just recorded is there. -/
theorem State.one_le_occ_collect (ho : s.cfg.staleOrder = .checkThenRecord) : 1 ≤ (s.collect count k slice).occ := by
  rw [State.collect_checkThenRecord ho]
  exact List.length_pos_iff.mpr (SlotMemory.write_ne_nil _ _ _)

/-- R100, R101: a frame that does not complete the transfer keeps the invariants. -/
theorem State.Inv.collect (h : s.Inv) (ha : s.cycleActive = true) (hl : slice.length ≤ s.cfg.maxFrame - 2)
    (hn : (s.collect count k slice).completionTest = false) :
    State.Inv { s.collect count k slice with timer := 0#32, st := .collecting } where
  cfgWf := s.collect_cfg count k slice ▸ h.cfgWf
  slotsWf := (s.collect_frame count k slice).2.2 h.slotsWf
  emptyOutsideCollecting hc := absurd rfl hc
  occupiedInCollecting _ ho := State.one_le_occ_collect (s.collect_cfg count k slice ▸ ho)
  totalZeroUnlessValid := h.expTotal_collect
  unknownBeforeFrames hs := by simp at hs
  paired := State.collect_outcome.trans (h.outcome_of_active ha)
  payloadOnlyOnSuccess := by
    rw [State.collect_out, State.collect_outcome]
    exact h.payloadOnlyOnSuccess
  payloadBound := by
    rw [State.collect_out, State.collect_cfg]
    exact h.payloadBound
  timerWhileCollecting _ := Nat.zero_le _
  timerWhileIdle hi := by cases hi
  notYetComplete _ hv he := by
    have : (s.collect count k slice).completionTest = true := (State.completionTest_iff _).mpr ⟨hv, he⟩
    simp [hn] at this
  sliceBound i t hr := by
    rw [State.collect_cfg]
    exact h.length_le_of_mem_collect hl (SlotMemory.mem_of_read hr)

/-- R22: a payload that `Finish` recovers from at most 255 bounded slices, less its 4 checksum characters. -/
theorem length_validate_le {m : SlotMemory} {body : List Byte} {bound : Nat} (hv : validate m.concat = some body)
    (hm : m.length ≤ 255) (hb : ∀ e ∈ m, e.2.length ≤ bound) : body.length ≤ 255 * bound - 4 := by
  obtain ⟨field, hcat, hlen, -⟩ := (validate_eq_some_iff _ _).mp hv
  have hc : body.length + 4 = m.concat.length := by rw [hcat, List.length_append, hlen]
  have hle : m.concat.length ≤ 255 * bound := (SlotMemory.length_concat_le hb).trans (Nat.mul_le_mul_right _ hm)
  omega

/-- R106: the frame that completes the transfer ends the cycle and keeps the invariants. -/
theorem State.Inv.finish_collect (h : s.Inv) (hl : slice.length ≤ s.cfg.maxFrame - 2)
    (hc : (s.collect count k slice).completionTest = true) :
    (State.finish { s.collect count k slice with timer := 0#32, st := .collecting }).Inv := by
  have hw : (s.collect count k slice).cfg.wf = true := s.collect_cfg count k slice ▸ h.cfgWf
  obtain ⟨-, hocc⟩ := (State.completionTest_iff _).mp hc
  rcases State.finish_cases { s.collect count k slice with timer := 0#32, st := .collecting } with
    ⟨body, hv, e⟩ | ⟨-, e⟩ <;> rw [e]
  · refine .ended hw rfl (.inl rfl) (.inl rfl) h.expTotal_collect (fun _ => rfl) ?_
    have hlen : (s.collect count k slice).slots.length ≤ 255 := hocc.trans_le (by omega)
    rw [State.collect_cfg]
    exact length_validate_le hv hlen fun _ he => h.length_le_of_mem_collect hl he
  · exact .ended hw rfl (.inl rfl) (.inr rfl) h.expTotal_collect (absurd rfl) (Nat.zero_le _)

theorem State.Inv.receive (h : s.Inv) (hl : slice.length ≤ s.cfg.maxFrame - 2) : (s.receive count k slice).Inv := by
  cases ha : s.cycleActive with
  | false => rwa [State.receive_inactive s ha]
  | true =>
    rw [State.receive_active s ha]
    rcases s.accept_cases count k slice with ⟨hc, e⟩ | ⟨hn, e⟩ <;> rw [e]
    · exact h.finish_collect hl hc
    · exact h.collect ha hl hn

/-! #### Instructions and steps -/

/-- R85: a parsed slice is at least 2 bytes shorter than its frame. -/
theorem length_parsedSlice_le {cfg : Config} {raw : List Byte} {p : ParsedFrame} (hp : parseFrame cfg raw = some p)
    (hl : raw.length ≤ cfg.maxFrame) : (parsedSlice p raw).length ≤ cfg.maxFrame - 2 := by
  have hoff := (parseFrame_off hp).1
  rw [parsedSlice, List.length_drop]
  omega

/-- R29: the effect of an instruction within `MAX_FRAME` keeps the invariants. -/
theorem State.Inv.effect (h : s.Inv) {i : Instr} (hi : i.wf s.cfg = true) : (effect i s).Inv := by
  cases i with
  | crcInit => exact h.outerFields _ _ _ _ _
  | crcByte b => exact h.outerFields _ _ _ _ _
  | fpParse raw => exact h
  | rxStart t => exact .eraseCycle h.cfgWf (.inr rfl) t
  | rxFrame raw =>
    have hl : raw.length ≤ s.cfg.maxFrame := of_decide_eq_true hi
    cases hp : parseFrame s.cfg raw with
    | none =>
      simp only [Machine.effect, hp]
      exact h.outerFields _ _ _ _ _
    | some p =>
      simp only [Machine.effect, hp]
      exact h.receive (length_parsedSlice_le hp hl)
  | rxTick =>
    simp only [Machine.effect]
    split
    · rename_i hc
      exact h.countTick hc
    · exact h
  | rxAbort => exact .eraseCycle h.cfgWf (.inl rfl) 0#32
  | rxByte k => exact h
  | rd r => exact h
  | frameF0 c k slice =>
    have hl : s.cfg.markerLen + 4 + slice.length ≤ s.cfg.maxFrame := of_decide_eq_true hi
    exact h.receive (by omega)
  | frameFN k slice =>
    have hl : 2 + slice.length ≤ s.cfg.maxFrame := of_decide_eq_true hi
    exact h.receive (by omega)

/-- R65: what a command decodes to is within `MAX_FRAME`. -/
theorem wf_of_decode {cfg : Config} {bytes : List Byte} {i : Instr} (h : decode cfg bytes = .ok i) :
    i.wf cfg = true := by
  rcases decode_eq_ok_cases h with ⟨-, rfl⟩ | ⟨b, -, rfl⟩ | ⟨n, raw, -, hn, hm, rfl⟩ | ⟨w3, w2, w1, w0, -, rfl⟩ |
    ⟨n, raw, -, hn, hm, rfl⟩ | ⟨-, rfl⟩ | ⟨-, rfl⟩ | ⟨h1, h0, -, rfl⟩ | ⟨r, -, rfl⟩
  exacts [rfl, rfl, decide_eq_true (hn.trans_le hm), rfl, decide_eq_true (hn.trans_le hm), rfl, rfl, rfl, rfl]

/-- R28, R29: the invariants hold after reset: nothing of a cycle is there. -/
theorem State.Inv.resetOf {cfg : Config} (hw : cfg.wf = true) : (State.resetOf cfg).Inv :=
  .eraseCycle (s := State.resetOf cfg) hw (.inl rfl) 0#32

end Invariants

/-- Settles O41, by cases on what the step takes from the port: a waiting step changes nothing, reset erases, a refused
command only answers, and an instruction has its effect. -/
theorem everyStepKeepsTheInvariants : Obligations.EveryStepKeepsTheInvariants := by
  unfold Obligations.EveryStepKeepsTheInvariants
  intro s t h hstep
  rcases step_cases hstep with ⟨-, rfl⟩ | ⟨rest, -, rfl⟩ | ⟨bytes, rest, e, -, -, rfl⟩ | ⟨bytes, rest, i, -, hd, he⟩
  · exact h
  · exact (State.Inv.resetOf h.cfgWf).outerFields _ _ _ _ _
  · exact h.outerFields _ _ _ _ _
  · have hrest : State.Inv { s with port := rest } := h.outerFields _ _ _ _ _
    rw [eq_of_exec he]
    exact (hrest.effect (wf_of_decode hd)).outerFields _ _ _ _ _

/-- Settles O40. -/
theorem invariantsHoldAtReset : Obligations.InvariantsHoldAtReset := by
  unfold Obligations.InvariantsHoldAtReset
  exact fun _ => State.Inv.resetOf

end Sys2Proof.Machine
end

section
/-! Proofs of the statements of 10_state.md about the STATUS word, the reset values, what the host can see of the slots,
and which commands read and write `crc` and the two flags. -/

namespace Sys2Proof.Machine

/-! ### STATUS and the reset values -/

/-- R25: the fields of a word that is put together as STATUS is, for each of the 256 values of the fields. -/
theorem statusWord_fields : ∀ (stale malf valid : Bool) (o : BitVec 2) (c : BitVec 3),
    let w : Word32 := 0#24 ++ BitVec.ofBool stale ++ BitVec.ofBool malf ++ BitVec.ofBool valid ++ o ++ c
    w.extractLsb 2 0 = c ∧ w.extractLsb 4 3 = o ∧ w.getLsbD 5 = valid ∧ w.getLsbD 6 = malf ∧ w.getLsbD 7 = stale ∧
      w.extractLsb 31 8 = 0#24 := by
  decide

/-- R25: the commands that answer STATUS answer it as it is after them. -/
theorem response_shows_status {s t : State} {i : Instr} (h : exec i s = .next t) {code : ResponseCode}
    (ha : answer i s = ⟨code, (effect i s).status⟩) : ∃ code, t.response = some ⟨code, t.status⟩ := by
  rw [eq_of_exec h, ha]
  exact ⟨code, rfl⟩

/-- Settles O25: the fields stand side by side in the word, and the five commands answer the STATUS of their effect. -/
theorem statusWordFields : Obligations.StatusWordFields := by
  unfold Obligations.StatusWordFields
  intro s
  obtain ⟨hst, hout, hvalid, hmalf, hstale, hzero⟩ :=
    statusWord_fields s.stale s.malf s.expValid s.outcome.code s.st.code
  refine ⟨hst, hout, hvalid, hmalf, hstale, hzero, fun i t h hi => ?_⟩
  rcases hi with rfl | rfl | rfl | ⟨d, rfl⟩ | ⟨raw, rfl⟩ <;> exact response_shows_status h rfl

/-- Settles O35. -/
theorem resetValues : Obligations.ResetValues := by
  unfold Obligations.ResetValues
  exact fun cfg => ⟨rfl, rfl, rfl, rfl, rfl, fun _ => rfl, rfl, rfl, rfl, rfl, rfl, rfl, rfl,
    (State.resetOf cfg).status_eraseCycle .off 0#32⟩

/-! ### The slots and the payload -/

/-- R17: in a canonical store an index is listed exactly when its slot is valid. -/
theorem SlotMemory.mem_indices_iff {m : SlotMemory} (h : m.wf) (n : Nat) :
    n ∈ m.map (fun e => e.1.toNat) ↔ n < 256 ∧ (m.read (BitVec.ofNat 8 n)).isSome = true := by
  constructor
  · intro hn
    obtain ⟨e, he, rfl⟩ := List.mem_map.mp hn
    refine ⟨e.1.isLt, ?_⟩
    rw [BitVec.ofNat_toNat, BitVec.setWidth_eq, SlotMemory.read_of_mem h he]
    rfl
  · rintro ⟨hn, hs⟩
    obtain ⟨slice, hr⟩ := Option.isSome_iff_exists.mp hs
    refine List.mem_map.mpr ⟨_, SlotMemory.mem_of_read hr, ?_⟩
    simpa using hn

/-- Settles O46: the listed indices and the valid ones among 0 to 255 are the same, each once. -/
theorem occupancyCountsTheValidSlots : Obligations.OccupancyCountsTheValidSlots := by
  unfold Obligations.OccupancyCountsTheValidSlots
  intro s h
  refine ⟨?_, SlotMemory.length_le h⟩
  have hlisted : (s.slots.map (fun e => e.1.toNat)).Nodup :=
    (List.pairwise_map.mpr h).imp fun hab => Nat.ne_of_lt hab
  have hvalid : ((List.range 256).filter (fun n => s.slotValid (BitVec.ofNat 8 n))).Nodup :=
    List.nodup_range.filter _
  have hperm := (List.perm_ext_iff_of_nodup hlisted hvalid).mpr fun n => by
    rw [SlotMemory.mem_indices_iff h, List.mem_filter, List.mem_range, State.slotValid]
  rw [State.occ, ← hperm.length_eq, List.length_map]

/-- Settles O49: the payload is empty by item 5, and RX.BYTE tests the outcome first. -/
theorem noPartialPayloadIsReadable : Obligations.NoPartialPayloadIsReadable := by
  unfold Obligations.NoPartialPayloadIsReadable
  intro s h ho
  refine ⟨h.out_eq_nil ho, fun i => ?_⟩
  rcases execRxByte_cases i s with ⟨_, hs, -⟩ | ⟨hs, -⟩ | ⟨-, he⟩
  · exact absurd hs ho
  · exact absurd hs ho
  · exact he

/-- The state with another slot store. -/
def State.withSlots (m : SlotMemory) (s : State) : State := { s with slots := m }

section Slots

variable (m : SlotMemory) (s : State)

/-- R107: a tick sees no slot; a timeout empties them all. -/
theorem State.countTick_withSlots : ∃ n, (s.withSlots m).countTick = s.countTick.withSlots n := by
  rcases s.countTick_cases with ⟨hle, h⟩ | ⟨hlt, h⟩
  · refine ⟨m, ?_⟩
    rcases (s.withSlots m).countTick_cases with ⟨-, h'⟩ | ⟨hlt', -⟩
    · rw [h, h']
      rfl
    · exact absurd hlt' hle
  · refine ⟨[], ?_⟩
    rcases (s.withSlots m).countTick_cases with ⟨hle', -⟩ | ⟨-, h'⟩
    · exact absurd hlt hle'
    · rw [h, h']
      rfl

/-- R27: on every field but the slots, a command's effect does not depend on the slots. -/
theorem effect_withSlots {i : Instr} (hf : ∀ raw, i ≠ .rxFrame raw) (hi : i.isCommand = true) :
    ∃ n, effect i (s.withSlots m) = (effect i s).withSlots n := by
  cases i with
  | crcInit | crcByte | fpParse | rxByte | rd => exact ⟨m, rfl⟩
  | rxStart | rxAbort => exact ⟨[], rfl⟩
  | rxFrame raw => exact absurd rfl (hf raw)
  | rxTick =>
    have ht : (s.withSlots m).tickCounted = s.tickCounted := rfl
    simp only [effect, ht]
    split
    · exact s.countTick_withSlots m
    · exact ⟨m, rfl⟩
  | frameF0 | frameFN => cases hi

variable {m s}

/-- R18, R27: of the slots a status register shows the occupancy only. -/
theorem State.statusRegister_withSlots (h : m.length = s.slots.length) (r : Byte) :
    (s.withSlots m).statusRegister r = s.statusRegister r := by
  have ho : (s.withSlots m).occ = s.occ := h
  simp only [State.statusRegister, ho]
  rfl

/-- R27: of the slots a command's answer shows the occupancy only. -/
theorem answer_withSlots (h : m.length = s.slots.length) {i : Instr} (hf : ∀ raw, i ≠ .rxFrame raw)
    (hi : i.isCommand = true) : answer i (s.withSlots m) = answer i s := by
  cases i with
  | crcInit | crcByte | fpParse | rxByte | rxStart | rxAbort => rfl
  | rxFrame raw => exact absurd rfl (hf raw)
  | rxTick =>
    obtain ⟨n, he⟩ := effect_withSlots m s (i := .rxTick) hf hi
    simp only [answer, he]
    rfl
  | rd r => simp only [answer, State.statusRegister_withSlots h]
  | frameF0 | frameFN => cases hi

end Slots

/-- Settles O45: by cases on the instruction, neither its answer nor its effect on the other fields sees the slots. -/
theorem slotContentsAreHidden : Obligations.SlotContentsAreHidden := by
  unfold Obligations.SlotContentsAreHidden
  intro s t m i hm hf hi h
  obtain ⟨n, he⟩ := effect_withSlots m s hf hi
  have ha := answer_withSlots hm hf hi
  refine ⟨_, exec_eq (s.withSlots m) i, ?_⟩
  rw [eq_of_exec h, he, ha]
  exact ⟨rfl, rfl⟩

/-! ### R11: the checksum register -/

section Crc

variable (c : Word16) {s : State} {i : Instr}

theorem crcAfter_of_not_crcCommand (hi : isCrcCommand i = false) : crcAfter c i = c := by
  cases i with
  | crcInit | crcByte => cases hi
  | fpParse | rxStart | rxFrame | rxTick | rxAbort | rxByte | rd | frameF0 | frameFN => rfl

/-- R11: an instruction outside the Checksum Engine has the same effect on the rest of the state for every `crc`. -/
theorem effect_withCrc (hi : isCrcCommand i = false) : effect i { s with crc := c } = { effect i s with crc := c } := by
  have he := effect_withCrcFlags c s.malf s.stale s i
  rwa [← effect_malf, ← effect_stale, crcAfter_of_not_crcCommand c hi] at he

/-- R26: only status register 6 shows `crc`. -/
theorem State.statusRegister_withCrc {r : Byte} (hr : r ≠ 6#8) :
    State.statusRegister { s with crc := c } r = s.statusRegister r := by
  have h6 : r.toNat ≠ 6 := fun h => hr (BitVec.eq_of_toNat_eq h)
  unfold State.statusRegister
  split
  case h_7 h => exact absurd h h6
  all_goals rfl

theorem answer_withCrc (hi : isCrcCommand i = false) (h6 : i ≠ .rd 6#8) :
    answer i { s with crc := c } = answer i s := by
  have he := effect_withCrc (s := s) c hi
  cases i with
  | crcInit | crcByte => cases hi
  | fpParse | rxByte => rfl
  | rd r => simp only [answer, State.statusRegister_withCrc c fun h => h6 (congrArg Instr.rd h)]
  | rxStart | rxFrame | rxTick | rxAbort | frameF0 | frameFN =>
    simp only [answer, he]
    rfl

/-- R11: an instruction outside the Checksum Engine leaves `crc` alone. -/
theorem exec_crc {t : State} (hi : isCrcCommand i = false) (h : exec i s = .next t) : t.crc = s.crc := by
  rw [eq_of_exec h]
  exact (effect_crc s i).trans (crcAfter_of_not_crcCommand _ hi)

end Crc

/-- Settles O43: a refused command only answers, and an instruction's effect and answer are as `effect_withCrc` and
`answer_withCrc` say. -/
theorem crcBelongsToTheChecksumEngine : Obligations.CrcBelongsToTheChecksumEngine := by
  unfold Obligations.CrcBelongsToTheChecksumEngine
  refine ⟨fun s t bytes h hi => ?_, fun s t i c hi h6 h => ?_⟩
  · rw [step_present (s := s) (wf_of_step (s := s.present bytes) h)] at h
    cases hd : decode s.cfg bytes with
    | error e =>
      rw [hd] at h
      rw [(onlyAnswers_next_iff s t _ _).mp h]
    | ok i =>
      rw [hd] at h
      exact exec_crc (hi i hd) h
  · rw [exec_eq, effect_withCrc c hi, answer_withCrc c hi h6, eq_of_exec h]

/-! ### R21: the flags -/

section Flags

variable {s : State} {i : Instr}

theorem clearsFlags_eq_false (ha : i ≠ .rxAbort) (hs : ∀ d, i ≠ .rxStart d) : clearsFlags i = false := by
  cases i with
  | rxAbort => exact absurd rfl ha
  | rxStart d => exact absurd rfl (hs d)
  | crcInit | crcByte | fpParse | rxFrame | rxTick | rxByte | rd | frameF0 | frameFN => rfl

theorem clearsFlags_eq_true (h : i = .rxAbort ∨ ∃ d, i = .rxStart d) : clearsFlags i = true := by
  rcases h with rfl | ⟨d, rfl⟩ <;> rfl

theorem setsMalf_iff :
    setsMalf i s = true ↔ s.cycleActive = true ∧ ∃ raw, i = .rxFrame raw ∧ parseFrame s.cfg raw = none := by
  cases i with
  | rxFrame raw => simp [setsMalf, and_comm]
  | crcInit | crcByte | fpParse | rxStart | rxTick | rxAbort | rxByte | rd | frameF0 | frameFN => simp [setsMalf]

/-- R53: a raw frame is of format F0 exactly when its parse gives a count. -/
theorem decodeFrame_eq_frameF0_iff {cfg : Config} {raw : List Byte} {c k : Byte} {slice : List Byte} :
    decodeFrame cfg raw = some (.frameF0 c k slice) ↔
      ∃ p, parseFrame cfg raw = some p ∧ p.count = some c ∧ p.index = k ∧ parsedSlice p raw = slice := by
  unfold decodeFrame parsedSlice
  cases parseFrame cfg raw with
  | none => simp
  | some p => cases hc : p.count <;> simp [hc]

@[simp] theorem State.staleAtTest_none (k : Byte) (slice : List Byte) : s.staleAtTest none k slice = false := rfl

/-- R100, R101: in a canonical store the occupancy at the stale test does not depend on the slice. -/
theorem State.staleAtTest_eq (hw : s.slots.wf) (count : Option Byte) (k : Byte) (slice : List Byte) :
    s.staleAtTest count k slice = conflicts s count (match s.cfg.staleOrder with
      | .checkThenRecord => s.occ
      | .recordThenCheck => filled s.slots k) := by
  have ho : (s.recordSlice k slice).occ = filled s.slots k := SlotMemory.length_write hw k slice
  cases h : s.cfg.staleOrder <;> simp [State.staleAtTest, h, ho]

/-- R104: the stale-transfer reset is taken by an accepted frame with a count, bare or inside RX.FRAME. -/
theorem setsStale_iff :
    setsStale i s = true ↔ s.cycleActive = true ∧ ∃ c k slice,
      (i = .frameF0 c k slice ∨ ∃ raw, i = .rxFrame raw ∧ decodeFrame s.cfg raw = some (.frameF0 c k slice)) ∧
      s.staleAtTest (some c) k slice = true := by
  cases i with
  | frameF0 c k slice => simp [setsStale]
  | rxFrame raw =>
    simp only [setsStale, decodeFrame_eq_frameF0_iff, reduceCtorEq, false_or, Instr.rxFrame.injEq, exists_eq_left']
    cases parseFrame s.cfg raw with
    | none => simp
    | some p => cases hc : p.count <;> simp [hc]
  | crcInit | crcByte | fpParse | rxStart | rxTick | rxAbort | rxByte | rd | frameFN => simp [setsStale]

variable (a b : Bool)

/-- R21: the flags influence no other field. -/
theorem effect_withFlags (s : State) (i : Instr) :
    ∃ a' b', effect i { s with malf := a, stale := b } = { effect i s with malf := a', stale := b' } := by
  have he := effect_withCrcFlags s.crc a b s i
  rw [← effect_crc] at he
  exact ⟨_, _, he⟩

/-- R26: only status register 0 shows the flags. -/
theorem State.statusRegister_withFlags {r : Byte} (hr : r ≠ 0#8) :
    State.statusRegister { s with malf := a, stale := b } r = s.statusRegister r := by
  have h0 : r.toNat ≠ 0 := fun h => hr (BitVec.eq_of_toNat_eq h)
  unfold State.statusRegister
  split
  case h_1 h => exact absurd h h0
  all_goals rfl

/-- R21: an answer shows the flags in STATUS only. -/
theorem answer_withFlags (s : State) (i : Instr) :
    answer i { s with malf := a, stale := b } = answer i s ∨
      ∃ code, answer i { s with malf := a, stale := b } = ⟨code, (effect i { s with malf := a, stale := b }).status⟩ ∧
        answer i s = ⟨code, (effect i s).status⟩ := by
  cases i with
  | crcInit | crcByte | fpParse | rxByte => exact .inl rfl
  | rxStart | rxFrame | rxTick | rxAbort | frameF0 | frameFN => exact .inr ⟨_, rfl, rfl⟩
  | rd r =>
    by_cases hr : r = 0#8
    · subst hr
      exact .inr ⟨.ok, rfl, rfl⟩
    · left
      simp only [answer, State.statusRegister_withFlags a b hr]

end Flags

/-- Settles O44: `effect_malf` and `effect_stale` say what becomes of the flags, `effect_withFlags` and
`answer_withFlags` that nothing else depends on them. -/
theorem flagsAreStickyAndInert : Obligations.FlagsAreStickyAndInert := by
  unfold Obligations.FlagsAreStickyAndInert
  intro s t i h
  have ht := eq_of_exec h
  have hmalf : t.malf = (!clearsFlags i && (s.malf || setsMalf i s)) := by rw [ht, ← effect_malf]
  have hstale : t.stale = (!clearsFlags i && (s.stale || setsStale i s)) := by rw [ht, ← effect_stale]
  refine ⟨fun ha hs => ?_, fun hi => ?_, fun a b => ?_⟩
  · rw [hmalf, hstale, clearsFlags_eq_false ha hs]
    refine ⟨fun hm => by simp [hm], fun hm => by simp [hm], fun hm => ?_, fun hm hw => ?_⟩
    · simp only [hm, Bool.not_false, Bool.true_and, Bool.false_or]
      exact setsMalf_iff
    · simp only [hm, Bool.not_false, Bool.true_and, Bool.false_or]
      have hset := setsStale_iff (s := s) (i := i)
      simp only [State.staleAtTest_eq hw] at hset
      exact hset
  · rw [hmalf, hstale, clearsFlags_eq_true hi]
    exact ⟨rfl, rfl⟩
  · obtain ⟨a', b', he⟩ := effect_withFlags a b s i
    refine ⟨_, exec_eq _ i, ?_, ?_⟩
    · rw [ht, he]
    · rcases answer_withFlags a b s i with hr | ⟨code, hu, hr⟩
      · exact .inl (by rw [ht, hr])
      · exact .inr ⟨code, by rw [hu]; rfl, by rw [ht, hr]; rfl⟩

end Sys2Proof.Machine
end

section
/-! Proofs of the statements of 20_memory.md: a step runs the command it decodes (R41, R45, R51), and reads and starts
may be repeated (R39). -/

namespace Sys2Proof.Machine

/-- Settles O29: `step_of_decode_ok` is the step's equation for a command that decodes. -/
theorem stepRunsTheDecodedCommand : Obligations.StepRunsTheDecodedCommand := by
  unfold Obligations.StepRunsTheDecodedCommand
  exact fun _ _ _ _ => step_of_decode_ok

/-! ### R39: instructions that may be repeated -/

section Repetition

variable {s t : State} {i : Instr}

/-- R39: an instruction without an effect changes nothing but the response. -/
theorem eq_withResponse_of_effect_eq (h : exec i s = .next t) (he : effect i s = s) :
    t = { s with response := t.response } := by
  rw [eq_of_exec h, he]

/-- R39: an instruction repeated gives the same state again if in that state it has no effect and the same answer. -/
theorem exec_repeat (h : exec i s = .next t) (he : effect i t = t) (ha : answer i t = answer i s) :
    exec i t = .next t := by
  have hr : t.response = some (answer i s) := by rw [eq_of_exec h]
  rw [exec_eq, he, ha, ← hr]

end Repetition

/-- Settles O47: the reads have no effect; the effect of CRC.INIT, RX.ABORT and RX.START is to set fields to values that
the state before does not enter; and no answer shows the response before it. -/
theorem readsAndStartsAreIdempotent : Obligations.ReadsAndStartsAreIdempotent := by
  unfold Obligations.ReadsAndStartsAreIdempotent
  intro s t i h
  refine ⟨fun hi => eq_withResponse_of_effect_eq h ?_, fun hi => ?_⟩
  · rcases hi with ⟨r, rfl⟩ | ⟨k, rfl⟩ | ⟨raw, rfl⟩ <;> rfl
  · have hagain : effect i t = t ∧ answer i t = answer i s := by
      rw [eq_of_exec h]
      rcases hi with ⟨r, rfl⟩ | ⟨k, rfl⟩ | ⟨raw, rfl⟩ | rfl | rfl | ⟨T, rfl⟩ <;> exact ⟨rfl, rfl⟩
    exact exec_repeat h hagain.1 hagain.2

end Sys2Proof.Machine
end

section
/-! The two decoders and the hexadecimal codec, from both sides: the operands of R48, the digits and fields of R55 to
R58, the outcomes of R51 for each command format, and the two wire formats of R53 and R54. -/

namespace Sys2Proof

/-! ### R36, R48: operands and their bytes -/

section Operands

variable (b3 b2 b1 b0 : Byte)

theorem toNat_append_byte {n : Nat} (x : BitVec n) (b : Byte) : (x ++ b).toNat = x.toNat * 2 ^ 8 + b.toNat := by
  rw [BitVec.toNat_append, ← Nat.shiftLeft_add_eq_or_of_lt b.isLt, Nat.shiftLeft_eq]

theorem half_toNat : (half b1 b0).toNat = b1.toNat * 2 ^ 8 + b0.toNat := toNat_append_byte b1 b0

theorem word_toNat :
    (word b3 b2 b1 b0).toNat = b3.toNat * 2 ^ 24 + b2.toNat * 2 ^ 16 + b1.toNat * 2 ^ 8 + b0.toNat := by
  simp only [word, toNat_append_byte]
  omega

theorem half_eq_ofNat : half b1 b0 = BitVec.ofNat 16 (b1.toNat * 2 ^ 8 + b0.toNat) := by
  rw [← half_toNat, BitVec.ofNat_toNat, BitVec.setWidth_eq]

theorem word_eq_ofNat : word b3 b2 b1 b0 =
    BitVec.ofNat 32 (b3.toNat * 2 ^ 24 + b2.toNat * 2 ^ 16 + b1.toNat * 2 ^ 8 + b0.toNat) := by
  rw [← word_toNat, BitVec.ofNat_toNat, BitVec.setWidth_eq]

/-- The bytes of an operand assemble to the operand. -/
theorem half_extractLsb (v : Word16) : half (v.extractLsb 15 8) (v.extractLsb 7 0) = v := by
  apply BitVec.eq_of_toNat_eq
  simp only [half_toNat, BitVec.extractLsb_toNat]
  omega

theorem word_extractLsb (v : Word32) :
    word (v.extractLsb 31 24) (v.extractLsb 23 16) (v.extractLsb 15 8) (v.extractLsb 7 0) = v := by
  apply BitVec.eq_of_toNat_eq
  simp only [word_toNat, BitVec.extractLsb_toNat]
  omega

/-- An assembled operand has the bytes it was assembled from. -/
theorem extractLsb_half : (half b1 b0).extractLsb 15 8 = b1 ∧ (half b1 b0).extractLsb 7 0 = b0 := by
  simp only [BitVec.toNat_eq, BitVec.extractLsb_toNat, half_toNat]
  omega

theorem extractLsb_word :
    (word b3 b2 b1 b0).extractLsb 31 24 = b3 ∧ (word b3 b2 b1 b0).extractLsb 23 16 = b2 ∧
      (word b3 b2 b1 b0).extractLsb 15 8 = b1 ∧ (word b3 b2 b1 b0).extractLsb 7 0 = b0 := by
  simp only [BitVec.toNat_eq, BitVec.extractLsb_toNat, word_toNat]
  omega

end Operands

/-! ### R55 to R58: hexadecimal digits and fields -/

/-- R55: the digit characters and their values. -/
theorem hexVal_eq_some_iff (c : Byte) (v : Nat) : hexVal c = some v ↔
    (0x30 ≤ c.toNat ∧ c.toNat ≤ 0x39 ∧ v = c.toNat - 0x30) ∨
    (0x41 ≤ c.toNat ∧ c.toNat ≤ 0x46 ∧ v = c.toNat - 0x41 + 10) ∨
    (0x61 ≤ c.toNat ∧ c.toNat ≤ 0x66 ∧ v = c.toNat - 0x61 + 10) := by
  unfold hexVal
  split_ifs <;> simp only [Option.some.injEq, false_iff] <;> omega

/-- A number within the width is the value of the word made of it. -/
theorem eq_ofNat_iff_toNat_eq {w n : Nat} (v : BitVec w) (h : n < 2 ^ w) : v = BitVec.ofNat w n ↔ v.toNat = n := by
  rw [BitVec.toNat_eq, BitVec.toNat_ofNat, Nat.mod_eq_of_lt h]

/-- R56 in natural numbers: the digits' values are small enough for the field's width. -/
theorem hexByte_eq_some_iff_toNat (c1 c0 v : Byte) :
    hexByte c1 c0 = some v ↔ ∃ a b, hexVal c1 = some a ∧ hexVal c0 = some b ∧ v.toNat = 16 * a + b := by
  rw [hexByte_eq_some_iff]
  refine exists_congr fun a => exists_congr fun b => and_congr_right fun ha => and_congr_right fun hb => ?_
  have := hexVal_lt ha
  have := hexVal_lt hb
  exact eq_ofNat_iff_toNat_eq v (by omega)

section FourDigits

variable {f0 f1 f2 f3 : Byte} {d0 d1 d2 d3 : Nat} (h0 : hexVal f0 = some d0) (h1 : hexVal f1 = some d1)
  (h2 : hexVal f2 = some d2) (h3 : hexVal f3 = some d3)

include h0 h1 h2 h3

/-- Four digits do not exceed 16 bits. -/
theorem digits_lt : 4096 * d0 + 256 * d1 + 16 * d2 + d3 < 2 ^ 16 := by
  have := hexVal_lt h0
  have := hexVal_lt h1
  have := hexVal_lt h2
  have := hexVal_lt h3
  omega

theorem hex4_of_digits :
    hex4 [f0, f1, f2, f3] = some (BitVec.ofNat 16 (4096 * d0 + 256 * d1 + 16 * d2 + d3)) := by
  simp only [hex4, h0, h1, h2, h3]

end FourDigits

/-- R57 in natural numbers: a 4-character field has a value exactly when it is four digits. -/
theorem hex4_eq_some_iff (f : List Byte) (v : Word16) :
    hex4 f = some v ↔ ∃ f0 f1 f2 f3 d0 d1 d2 d3, f = [f0, f1, f2, f3] ∧ hexVal f0 = some d0 ∧ hexVal f1 = some d1 ∧
      hexVal f2 = some d2 ∧ hexVal f3 = some d3 ∧ v.toNat = 4096 * d0 + 256 * d1 + 16 * d2 + d3 := by
  constructor
  · intro h
    unfold hex4 at h
    split at h
    · rename_i f0 f1 f2 f3
      split at h
      · rename_i d0 d1 d2 d3 h0 h1 h2 h3
        cases h
        exact ⟨f0, f1, f2, f3, d0, d1, d2, d3, rfl, h0, h1, h2, h3,
          (eq_ofNat_iff_toNat_eq _ (digits_lt h0 h1 h2 h3)).mp rfl⟩
      · cases h
    · cases h
  · rintro ⟨f0, f1, f2, f3, d0, d1, d2, d3, rfl, h0, h1, h2, h3, hv⟩
    rw [hex4_of_digits h0 h1 h2 h3, (eq_ofNat_iff_toNat_eq v (digits_lt h0 h1 h2 h3)).mpr hv]

/-- R58: a digit's character, as one number. -/
theorem hexDigit_eq_ofNat (upper : Bool) (d : BitVec 4) : hexDigit upper d =
    BitVec.ofNat 8 (if d.toNat ≤ 9 then 0x30 + d.toNat
      else if upper then 0x41 + d.toNat - 10 else 0x61 + d.toNat - 10) := by
  unfold hexDigit
  split_ifs <;> rfl

/-- R58: the rendering of an 8-bit value reads back. -/
theorem hexByte_hexDigits (upper : Bool) (v : Byte) :
    hexByte (hexDigit upper (v.extractLsb 7 4)) (hexDigit upper (v.extractLsb 3 0)) = some v := by
  refine (hexByte_eq_some_iff_toNat _ _ v).mpr ⟨_, _, hexVal_hexDigit upper _, hexVal_hexDigit upper _, ?_⟩
  simp only [BitVec.extractLsb_toNat]
  omega

/-- R58: the rendering of a 16-bit value reads back. -/
theorem hex4_toHex4 (upper : Bool) (v : Word16) : hex4 (toHex4 upper v) = some v := by
  refine (hex4_eq_some_iff _ v).mpr ⟨_, _, _, _, _, _, _, _, rfl, hexVal_hexDigit upper _, hexVal_hexDigit upper _,
    hexVal_hexDigit upper _, hexVal_hexDigit upper _, ?_⟩
  simp only [BitVec.extractLsb_toNat]
  omega

/-! ### R50, R51: where decoding a command stops -/

section Stops

variable {cfg : Config} {op n : Byte} {args raw : List Byte}

/-- R50: the other 247 opcode bytes are illegal, whatever follows. -/
theorem decode_of_illegal
    (h : op ∉ [0x10#8, 0x11#8, 0x20#8, 0x30#8, 0x31#8, 0x32#8, 0x33#8, 0x34#8, 0x40#8]) :
    decode cfg (op :: args) = .error (.illegalOpcode op) := by
  simp only [List.mem_cons, List.not_mem_nil, or_false, not_or] at h
  simp only [decode, h, if_false]

theorem formZ_of_length_ne (i : Instr) (h : args.length ≠ 0) : formZ op args i = .error (.badLength op) := by
  unfold formZ
  split
  · exact absurd rfl h
  · rfl

theorem formB_of_length_ne (mk : Byte → Instr) (h : args.length ≠ 1) :
    formB op args mk = .error (.badLength op) := by
  unfold formB
  split
  · exact absurd rfl h
  · rfl

theorem formH_of_length_ne (mk : Word16 → Instr) (h : args.length ≠ 2) :
    formH op args mk = .error (.badLength op) := by
  unfold formH
  split
  · exact absurd rfl h
  · rfl

theorem formW_of_length_ne (mk : Word32 → Instr) (h : args.length ≠ 4) :
    formW op args mk = .error (.badLength op) := by
  unfold formW
  split
  · exact absurd rfl h
  · rfl

theorem formL_of_length_ne (mk : List Byte → Instr) (h : raw.length ≠ n.toNat) :
    formL cfg op (n :: raw) mk = .error (.badLength op) := if_pos h

theorem formL_of_tooLong (mk : List Byte → Instr) (h : raw.length = n.toNat) (hn : cfg.maxFrame < n.toNat) :
    formL cfg op (n :: raw) mk = .error (.frameTooLong n) :=
  (if_neg (not_not.mpr h)).trans (if_pos hn)

theorem formL_of_fits (mk : List Byte → Instr) (h : raw.length = n.toNat) (hn : n.toNat ≤ cfg.maxFrame) :
    formL cfg op (n :: raw) mk = .ok (mk raw) :=
  (formL_eq_ok_iff ..).mpr ⟨n, raw, rfl, h, hn, rfl⟩

/-- R51, steps 3 and 4: with a legal opcode the length is tested first, then the bound on a raw frame; a command that
passes both is an instruction. -/
structure StopsInOrder (op : Byte) (fits : Bool) (tooLong : Prop) (result : Except CommandError Instr) : Prop where
  badLength : fits = false → result = .error (.badLength op)
  frameTooLong : fits = true → tooLong → ∃ n, result = .error (.frameTooLong n)
  command : fits = true → ¬ tooLong → ∃ i, i.isCommand = true ∧ result = .ok i

/-- R51: a format of fixed length can fail by its length only. -/
theorem StopsInOrder.of_fixedLength {len : Nat} {tooLong : Prop} {result : Except CommandError Instr}
    (hl : ¬ tooLong) (hbad : args.length ≠ len → result = .error (.badLength op))
    (hok : args.length = len → ∃ i, i.isCommand = true ∧ result = .ok i) :
    StopsInOrder op (decide (args.length = len)) tooLong result where
  badLength h := hbad (of_decide_eq_false h)
  frameTooLong _ h := absurd h hl
  command h _ := hok (of_decide_eq_true h)

variable {tooLong : Prop}

theorem formZ_stopsInOrder (hl : ¬ tooLong) {i : Instr} (hi : i.isCommand = true) :
    StopsInOrder op (decide (args.length = 0)) tooLong (formZ op args i) := by
  refine .of_fixedLength hl (formZ_of_length_ne i) fun h => ⟨i, hi, ?_⟩
  rw [List.length_eq_zero_iff.mp h]
  rfl

theorem formB_stopsInOrder (hl : ¬ tooLong) {mk : Byte → Instr} (hi : ∀ b, (mk b).isCommand = true) :
    StopsInOrder op (decide (args.length = 1)) tooLong (formB op args mk) := by
  refine .of_fixedLength hl (formB_of_length_ne mk) fun h => ?_
  obtain ⟨b, rfl⟩ := List.length_eq_one_iff.mp h
  exact ⟨mk b, hi b, rfl⟩

theorem formH_stopsInOrder (hl : ¬ tooLong) {mk : Word16 → Instr} (hi : ∀ v, (mk v).isCommand = true) :
    StopsInOrder op (decide (args.length = 2)) tooLong (formH op args mk) := by
  refine .of_fixedLength hl (formH_of_length_ne mk) fun h => ?_
  obtain ⟨h1, h0, rfl⟩ := List.length_eq_two.mp h
  exact ⟨_, hi _, rfl⟩

theorem formW_stopsInOrder (hl : ¬ tooLong) {mk : Word32 → Instr} (hi : ∀ v, (mk v).isCommand = true) :
    StopsInOrder op (decide (args.length = 4)) tooLong (formW op args mk) := by
  refine .of_fixedLength hl (formW_of_length_ne mk) fun h => ?_
  obtain ⟨w3, w2, w1, w0, rfl⟩ := List.length_eq_four.mp h
  exact ⟨_, hi _, rfl⟩

/-- R51: format L fits when the length byte is there and says how many bytes follow it. -/
def fitsLengthByte : List Byte → Bool
  | [] => false
  | n :: raw => decide (raw.length = n.toNat)

theorem formL_stopsInOrder (hop : op ∈ [0x20#8, 0x31#8]) {mk : List Byte → Instr}
    (hi : ∀ r, (mk r).isCommand = true) :
    StopsInOrder op (fitsLengthByte args) (op ∈ [0x20#8, 0x31#8] ∧ cfg.maxFrame < (args.headD 0#8).toNat)
      (formL cfg op args mk) := by
  cases args with
  | nil => exact ⟨fun _ => rfl, nofun, nofun⟩
  | cons n raw =>
    refine ⟨fun h => formL_of_length_ne mk (of_decide_eq_false h), fun h hl => ⟨n, ?_⟩,
      fun h hl => ⟨mk raw, hi raw, ?_⟩⟩
    · exact formL_of_tooLong mk (of_decide_eq_true h) hl.2
    · exact formL_of_fits mk (of_decide_eq_true h) (Nat.le_of_not_lt fun hn => hl ⟨hop, hn⟩)

end Stops

/-! ### R53, R54, R59: raw frames -/

section Frames

variable {cfg : Config} {raw slice : List Byte} {c1 c0 i1 i0 c i : Byte}

theorem length_marker : cfg.marker.length = cfg.markerLen := rfl

/-- R59: the marker test includes that the frame is as long as the marker. -/
theorem markerLen_le_of_take_eq (h : raw.take cfg.markerLen = cfg.marker) : cfg.markerLen ≤ raw.length := by
  have hlen := congrArg List.length h
  rw [List.length_take, length_marker] at hlen
  omega

theorem marker_append_take (tail : List Byte) : (cfg.marker ++ tail).take cfg.markerLen = cfg.marker :=
  List.take_left

theorem marker_append_drop (tail : List Byte) (k : Nat) : (cfg.marker ++ tail).drop (cfg.markerLen + k) = tail.drop k :=
  List.drop_length_add_append k

theorem parseFrame_of_marked (hc : hexByte c1 c0 = some c) (hi : hexByte i1 i0 = some i) :
    parseFrame cfg (cfg.marker ++ c1 :: c0 :: i1 :: i0 :: slice) = some ⟨some c, i, cfg.markerLen + 4⟩ :=
  (parseFrame_eq_some_of_marked (marker_append_take _) _).mpr
    ⟨c1, c0, i1, i0, slice, c, i, marker_append_drop _ 0, hc, hi, rfl⟩

theorem parseFrame_of_plain (hm : (i1 :: i0 :: slice).take cfg.markerLen ≠ cfg.marker) (hi : hexByte i1 i0 = some i) :
    parseFrame cfg (i1 :: i0 :: slice) = some ⟨none, i, 2⟩ :=
  (parseFrame_eq_some_of_plain hm _).mpr ⟨i1, i0, slice, i, rfl, hi, rfl⟩

/-- R53: marker, count, index and slice are a frame of format F0. -/
theorem decodeFrame_of_marked (hc : hexByte c1 c0 = some c) (hi : hexByte i1 i0 = some i) :
    decodeFrame cfg (cfg.marker ++ c1 :: c0 :: i1 :: i0 :: slice) = some (.frameF0 c i slice) := by
  simp only [decodeFrame, parseFrame_of_marked hc hi, marker_append_drop, List.drop_succ_cons, List.drop_zero]

/-- R54: without the marker, index and slice are a frame of format FN. -/
theorem decodeFrame_of_plain (hm : (i1 :: i0 :: slice).take cfg.markerLen ≠ cfg.marker)
    (hi : hexByte i1 i0 = some i) : decodeFrame cfg (i1 :: i0 :: slice) = some (.frameFN i slice) := by
  simp only [decodeFrame, parseFrame_of_plain hm hi, List.drop_succ_cons, List.drop_zero]

/-- R59: a frame that parses has a count exactly when it begins with the marker. -/
theorem count_isSome_iff_of_parse {p : ParsedFrame} (h : parseFrame cfg raw = some p) :
    p.count.isSome = true ↔ raw.take cfg.markerLen = cfg.marker := by
  by_cases hm : raw.take cfg.markerLen = cfg.marker
  · obtain ⟨c1, c0, i1, i0, rest, c, i, -, -, -, rfl⟩ := (parseFrame_eq_some_of_marked hm p).mp h
    exact iff_of_true rfl hm
  · obtain ⟨i1, i0, rest, i, -, -, rfl⟩ := (parseFrame_eq_some_of_plain hm p).mp h
    exact iff_of_false Bool.false_ne_true hm

theorem markerHeadOk_of_wf (h : cfg.wf = true) : cfg.markerHeadOk = true := by
  simp only [Config.wf, Bool.and_eq_true] at h
  exact h.2

/-- R6, R90: a frame that begins with two hexadecimal characters does not begin with the marker. -/
theorem take_ne_marker_of_hexHead (hw : cfg.wf = true) (h1 : (hexVal c1).isSome = true)
    (h0 : (hexVal c0).isSome = true) : (c1 :: c0 :: slice).take cfg.markerLen ≠ cfg.marker := by
  have hok := markerHeadOk_of_wf hw
  unfold Config.markerHeadOk at hok
  unfold Config.markerLen
  intro he
  split at hok
  · cases hok
  · rename_i a hm
    rw [hm] at he
    cases he
    rw [Option.isNone_iff_eq_none] at hok
    simp [hok] at h1
  · rename_i a b rest hm
    simp only [hm, List.length_cons, List.take_succ_cons, List.cons.injEq] at he
    obtain ⟨rfl, rfl, -⟩ := he
    simp [h1, h0] at hok

/-- R90: so a frame with an index field in front does not begin with the marker. -/
theorem take_ne_marker_of_hexByte (hw : cfg.wf = true) (hi : hexByte i1 i0 = some i) :
    (i1 :: i0 :: slice).take cfg.markerLen ≠ cfg.marker := by
  obtain ⟨h1, h0⟩ := (hexByte_isSome_iff i1 i0).mp (Option.isSome_of_eq_some hi)
  exact take_ne_marker_of_hexHead hw h1 h0

end Frames

/-! ### R64, R65: encoding and decoding undo each other -/

section RoundTrip

variable {cfg : Config} {i : Instr}

/-- R46, R65: format L, a raw frame behind its length byte. -/
theorem formL_encode (hw : cfg.wf = true) (op : Byte) {raw : List Byte} (hr : raw.length ≤ cfg.maxFrame)
    (mk : List Byte → Instr) : formL cfg op (BitVec.ofNat 8 raw.length :: raw) mk = .ok (mk raw) := by
  have hlen := Laws.FormatLength.length_byte hw hr
  exact formL_of_fits mk hlen.symm (hlen.trans_le hr)

/-- R47, R48: a well-formed command is decoded from its encoding. -/
theorem decode_encode (hw : cfg.wf = true) (hi : i.wf cfg = true) (hc : i.isCommand = true) :
    decode cfg (encode cfg i) = .ok i := by
  cases i with
  | crcInit | crcByte | rxTick | rxAbort | rd => rfl
  | fpParse raw => exact formL_encode hw 0x20#8 (of_decide_eq_true hi) .fpParse
  | rxFrame raw => exact formL_encode hw 0x31#8 (of_decide_eq_true hi) .rxFrame
  | rxStart t => exact congrArg (fun v => Except.ok (Instr.rxStart v)) (word_extractLsb t)
  | rxByte k => exact congrArg (fun v => Except.ok (Instr.rxByte v)) (half_extractLsb k)
  | frameF0 | frameFN => cases hc

/-- R53, R54, R90: a wire format is decoded from its encoding. -/
theorem decodeFrame_encode (hw : cfg.wf = true) (hc : i.isCommand = false) :
    decodeFrame cfg (encode cfg i) = some i := by
  cases i with
  | frameF0 c k slice =>
    simp only [encode, toHex2, List.append_assoc, List.cons_append, List.nil_append]
    exact decodeFrame_of_marked (hexByte_hexDigits _ c) (hexByte_hexDigits _ k)
  | frameFN k slice =>
    have hk := hexByte_hexDigits cfg.hexUpper k
    exact decodeFrame_of_plain (take_ne_marker_of_hexByte hw hk) hk
  | crcInit | crcByte | fpParse | rxStart | rxFrame | rxTick | rxAbort | rxByte | rd => cases hc

/-- R65: a well-formed wire format is a frame within `MAX_FRAME`. -/
theorem length_encode_le (hi : i.wf cfg = true) (hc : i.isCommand = false) :
    (encode cfg i).length ≤ cfg.maxFrame := by
  cases i with
  | frameF0 | frameFN =>
    simp only [Instr.wf, decide_eq_true_eq] at hi
    simp only [encode, toHex2, length_marker, List.length_append, List.length_cons, List.length_nil]
    omega
  | crcInit | crcByte | fpParse | rxStart | rxFrame | rxTick | rxAbort | rxByte | rd => cases hc

/-- R47: the command decoder gives host commands only. -/
theorem isCommand_of_decode {bytes : List Byte} (h : decode cfg bytes = .ok i) : i.isCommand = true := by
  rcases decode_eq_ok_cases h with ⟨-, rfl⟩ | ⟨b, -, rfl⟩ | ⟨n, raw, -, -, -, rfl⟩ | ⟨w3, w2, w1, w0, -, rfl⟩ |
    ⟨n, raw, -, -, -, rfl⟩ | ⟨-, rfl⟩ | ⟨-, rfl⟩ | ⟨h1, h0, -, rfl⟩ | ⟨r, -, rfl⟩ <;> rfl

/-- R46: the length byte of a frame is determined by the frame. -/
theorem ofNat_length_eq {n : Byte} {raw : List Byte} (h : raw.length = n.toNat) : BitVec.ofNat 8 raw.length = n := by
  rw [h, BitVec.ofNat_toNat, BitVec.setWidth_eq]

/-- R64: what decodes is the encoding of what it decodes to. -/
theorem encode_of_decode {bytes : List Byte} (h : decode cfg bytes = .ok i) : encode cfg i = bytes := by
  rcases decode_eq_ok_cases h with ⟨rfl, rfl⟩ | ⟨b, rfl, rfl⟩ | ⟨n, raw, rfl, hn, -, rfl⟩ |
    ⟨w3, w2, w1, w0, rfl, rfl⟩ | ⟨n, raw, rfl, hn, -, rfl⟩ | ⟨rfl, rfl⟩ | ⟨rfl, rfl⟩ | ⟨h1, h0, rfl, rfl⟩ |
    ⟨r, rfl, rfl⟩
  · rfl
  · rfl
  · rw [encode, ofNat_length_eq hn]
  · simp only [encode, extractLsb_word w3 w2 w1 w0]
  · rw [encode, ofNat_length_eq hn]
  · rfl
  · rfl
  · simp only [encode, extractLsb_half h1 h0]
  · rfl

end RoundTrip

end Sys2Proof
end

section
/-! Proofs of the statements of 30_encoding.md: how a presented command is decoded and answered (R45 to R51), the raw
frames inside RX.FRAME (R53, R54), and the encodings read back (R58, R64). -/

namespace Sys2Proof.Machine

/-! ### R45: a presented command is answered -/

section Presented

variable {s : State} {bytes : List Byte}

/-- R51, R150: a presented command that does not decode is answered with its error code. -/
theorem step_present_of_error {e : CommandError} (hw : s.cfg.wf = true) (hd : decode s.cfg bytes = .error e) :
    step (s.present bytes) = onlyAnswers s (errorCode e) 0#32 := by
  rw [step_present hw, hd]

/-- R45: a presented command that decodes has its instruction's effect. -/
theorem step_present_of_ok {i : Instr} (hw : s.cfg.wf = true) (hd : decode s.cfg bytes = .ok i) :
    step (s.present bytes) = exec i s := by
  rw [step_present hw, hd]

end Presented

/-! ### R41: what waits at the port stays there -/

@[simp] theorem State.collect_port (s : State) (count : Option Byte) (k : Byte) (slice : List Byte) :
    (s.collect count k slice).port = s.port := by
  rw [(s.collect_frame count k slice).1]

@[simp] theorem State.finish_port (s : State) : s.finish.port = s.port := by
  rcases s.finish_cases with ⟨body, -, h⟩ | ⟨-, h⟩ <;> rw [h]

@[simp] theorem State.accept_port (s : State) (count : Option Byte) (k : Byte) (slice : List Byte) :
    (s.accept count k slice).port = s.port := by
  rcases s.accept_cases count k slice with ⟨-, h⟩ | ⟨-, h⟩ <;> simp [h]

@[simp] theorem State.receive_port (s : State) (count : Option Byte) (k : Byte) (slice : List Byte) :
    (s.receive count k slice).port = s.port := by
  unfold State.receive
  split
  · exact s.accept_port count k slice
  · rfl

@[simp] theorem State.countTick_port (s : State) : s.countTick.port = s.port := by
  rcases s.countTick_cases with ⟨-, h⟩ | ⟨-, h⟩ <;> rw [h]

/-- R41: no instruction takes or adds an event at the port. -/
@[simp] theorem effect_port (i : Instr) (s : State) : (effect i s).port = s.port := by
  cases i with
  | crcInit | crcByte | fpParse | rxStart | rxAbort | rxByte | rd => rfl
  | rxFrame raw =>
    simp only [effect]
    split
    · rfl
    · exact s.receive_port _ _ _
  | rxTick =>
    simp only [effect]
    split
    · exact s.countTick_port
    · rfl
  | frameF0 c k slice => exact s.receive_port _ _ _
  | frameFN k slice => exact s.receive_port _ _ _

/-! ### R53, R54, R98: a wire format inside its command -/

/-- R98: RX.FRAME with a frame that parses is the acceptance of what it parses to, outside a cycle too. -/
theorem execRxFrame_of_parse {s : State} {raw : List Byte} {p : ParsedFrame} (h : parseFrame s.cfg raw = some p) :
    execRxFrame raw s = acceptFrame p.count p.index (parsedSlice p raw) s := by
  unfold execRxFrame
  cases ha : s.cycleActive with
  | true => simp only [if_true, h]
  | false => simp only [acceptFrame, ha, Bool.false_eq_true, if_false]

/-- R53, R54: what a frame decodes to is what it parses to. -/
theorem exec_of_decodeFrame {s : State} {raw : List Byte} {f : Instr} (h : decodeFrame s.cfg raw = some f) :
    exec f s = exec (.rxFrame raw) s := by
  unfold decodeFrame at h
  split at h
  · cases h
  · rename_i p hp
    have hrx : exec (.rxFrame raw) s = acceptFrame p.count p.index (parsedSlice p raw) s := execRxFrame_of_parse hp
    split at h
    · rename_i c hc
      cases h
      rw [hrx, hc]
      rfl
    · rename_i hc
      cases h
      rw [hrx, hc]
      rfl

theorem acceptFrame_of_active {s : State} (h : s.st = .idle ∨ s.st = .collecting) (count : Option Byte) (k : Byte)
    (slice : List Byte) :
    acceptFrame count k slice s = onlyAnswers (s.accept count k slice) .ok (s.accept count k slice).status :=
  if_pos (s.cycleActive_iff.mpr h)

theorem acceptFrame_of_not_active {s : State} (h : s.st ≠ .idle ∧ s.st ≠ .collecting) (count : Option Byte)
    (k : Byte) (slice : List Byte) : acceptFrame count k slice s = onlyAnswers s .ignored s.status :=
  if_neg fun ha => not_or.mpr h (s.cycleActive_iff.mp ha)

/-! ### The statements -/

/-- Settles O37: `decode_encode` for the host commands; `decodeFrame_encode` and `length_encode_le` for the two wire
formats, of which FN needs that no well-formed marker begins with an index. -/
theorem decodeOfEncode : Obligations.DecodeOfEncode := by
  unfold Obligations.DecodeOfEncode
  exact fun cfg i hw hi => ⟨decode_encode hw hi, fun hc => ⟨decodeFrame_encode hw hc, length_encode_le hi hc⟩⟩

/-- Settles O38, by the nine forms of a command that decodes. -/
theorem encodeOfDecode : Obligations.EncodeOfDecode := by
  unfold Obligations.EncodeOfDecode
  exact fun cfg bytes i h => ⟨isCommand_of_decode h, wf_of_decode h, encode_of_decode h⟩

/-- Settles O7. -/
theorem hexDigitsAreExactly22Characters : Obligations.HexDigitsAreExactly22Characters := by
  unfold Obligations.HexDigitsAreExactly22Characters
  exact hexVal_eq_some_iff

/-- Settles O8: a digit's value is below 16, so neither field wraps. -/
theorem hexFieldsAreMostSignificantDigitFirst : Obligations.HexFieldsAreMostSignificantDigitFirst := by
  unfold Obligations.HexFieldsAreMostSignificantDigitFirst
  exact ⟨hexByte_eq_some_iff_toNat, hex4_eq_some_iff⟩

/-- Settles O9: each rendered digit reads back (`hexVal_hexDigit`), and the digits make up the value. -/
theorem hexFieldsReadBack : Obligations.HexFieldsReadBack := by
  unfold Obligations.HexFieldsReadBack
  intro upper digit
  have hdigit : ∀ d, hexDigit upper d = digit d := hexDigit_eq_ofNat upper
  refine ⟨fun v => ⟨_, _, rfl, hdigit _, hdigit _, hexByte_hexDigits upper v⟩, fun v => ⟨?_, hex4_toHex4 upper v⟩⟩
  simp only [toHex4, hdigit]

/-- Settles O11: the two formats by the marker test, and the count of whatever parses. -/
theorem framesDecodeByTheirMarker : Obligations.FramesDecodeByTheirMarker := by
  unfold Obligations.FramesDecodeByTheirMarker
  intro cfg raw
  have marked_iff : (cfg.markerLen ≤ raw.length ∧ raw.take cfg.markerLen = cfg.marker) ↔
      raw.take cfg.markerLen = cfg.marker := and_iff_right_of_imp markerLen_le_of_take_eq
  simp only [marked_iff]
  refine ⟨?_, ?_, fun p => count_isSome_iff_of_parse⟩
  · rintro c1 c0 i1 i0 c i slice rfl hc hi
    exact ⟨parseFrame_of_marked hc hi, marker_append_drop _ 4, decodeFrame_of_marked hc hi⟩
  · rintro i1 i0 i slice rfl hm hi
    exact ⟨parseFrame_of_plain hm hi, rfl, decodeFrame_of_plain hm hi⟩

/-- Settles O17: RX.FRAME with a frame that parses is `acceptFrame`, as the two wire formats are. -/
theorem frameEffectIsItsRxFrame : Obligations.FrameEffectIsItsRxFrame := by
  unfold Obligations.FrameEffectIsItsRxFrame
  exact fun s => ⟨fun _ _ => exec_of_decodeFrame,
    fun h c k slice => ⟨acceptFrame_of_active h (some c) k slice, acceptFrame_of_active h none k slice⟩,
    fun h c k slice => ⟨acceptFrame_of_not_active h (some c) k slice, acceptFrame_of_not_active h none k slice⟩⟩

/-- Settles O28: the datum's four bytes assemble to it, as an operand's do. -/
theorem responseIsFiveBytesBigEndian : Obligations.ResponseIsFiveBytesBigEndian := by
  unfold Obligations.ResponseIsFiveBytesBigEndian
  refine fun r => ⟨_, _, _, _, rfl, word_extractLsb r.data, ?_⟩
  cases r.code <;> rfl

/-- Settles O30: the command decodes by its opcode, and its operand's bytes assemble arithmetically. -/
theorem opcodeMapExecutesTheNineCommands : Obligations.OpcodeMapExecutesTheNineCommands := by
  unfold Obligations.OpcodeMapExecutesTheNineCommands
  intro s hw
  refine ⟨step_present_of_ok hw rfl, step_present_of_ok hw rfl, step_present_of_ok hw rfl,
    fun b => ⟨step_present_of_ok hw rfl, step_present_of_ok hw rfl⟩, fun h1 h0 => ?_, fun w3 w2 w1 w0 => ?_,
    fun n raw hlen hmax => ⟨?_, ?_⟩⟩
  · rw [← half_eq_ofNat]
    exact step_present_of_ok hw rfl
  · rw [← word_eq_ofNat]
    exact step_present_of_ok hw rfl
  · exact step_present_of_ok hw (formL_of_fits .fpParse hlen hmax)
  · exact step_present_of_ok hw (formL_of_fits .rxFrame hlen hmax)

/-- Settles O31: an opcode outside the nine is refused at once; for each of the nine its format's decoder tests the
length and then the bound. -/
theorem decodingStopsAtTheFirstFailure : Obligations.DecodingStopsAtTheFirstFailure := by
  unfold Obligations.DecodingStopsAtTheFirstFailure
  intro s hw
  refine ⟨step_present_of_error (e := .emptyCommand) hw rfl, fun op args => ?_⟩
  intro fits legal tooLong
  have key : legal → StopsInOrder op fits tooLong (decode s.cfg (op :: args)) := by
    intro hop
    have noFrame : op ∉ [0x20#8, 0x31#8] → ¬ tooLong := fun h hl => h hl.1
    simp only [legal, List.mem_cons, List.not_mem_nil, or_false] at hop
    rcases hop with rfl | rfl | rfl | rfl | rfl | rfl | rfl | rfl | rfl
    · exact formZ_stopsInOrder (noFrame (by decide)) rfl
    · exact formB_stopsInOrder (noFrame (by decide)) fun _ => rfl
    · exact formL_stopsInOrder (by decide) fun _ => rfl
    · exact formW_stopsInOrder (noFrame (by decide)) fun _ => rfl
    · exact formL_stopsInOrder (by decide) fun _ => rfl
    · exact formZ_stopsInOrder (noFrame (by decide)) rfl
    · exact formZ_stopsInOrder (noFrame (by decide)) rfl
    · exact formH_stopsInOrder (noFrame (by decide)) fun _ => rfl
    · exact formB_stopsInOrder (noFrame (by decide)) fun _ => rfl
  refine ⟨fun h => step_present_of_error hw (decode_of_illegal h),
    fun h hf => step_present_of_error hw ((key h).badLength hf), fun h hf hl => ?_, fun h hf hl => ?_⟩
  · obtain ⟨n, hn⟩ := (key h).frameTooLong hf hl
    exact step_present_of_error hw hn
  · obtain ⟨i, hi, hd⟩ := (key h).command hf hl
    exact ⟨i, hi, step_present_of_ok hw hd⟩

/-- Settles O33: a refused command only answers, and every instruction has one next state, with its answer. -/
theorem everyCommandIsAnswered : Obligations.EveryCommandIsAnswered := by
  unfold Obligations.EveryCommandIsAnswered
  intro s bytes hw
  cases hd : decode s.cfg bytes with
  | error e => exact ⟨_, _, step_present_of_error hw hd, rfl, rfl, rfl⟩
  | ok i =>
    have hexec := exec_eq s i
    exact ⟨_, _, (step_present_of_ok hw hd).trans hexec, rfl, effect_port i s, exec_cfg hexec⟩

/-- Settles O39: each word by the decoder's own evaluation. -/
theorem writtenOutWordsDecode : Obligations.WrittenOutWordsDecode := by
  unfold Obligations.WrittenOutWordsDecode
  exact ⟨rfl, rfl, rfl, rfl, rfl, rfl, rfl, rfl⟩

end Sys2Proof.Machine
end

section
/-! Proofs of the statements of 40_checksum.md. The update of R72 is brought into its bit-serial form (R73); that form
is linear and loses nothing, and R79's laws follow. -/

namespace Sys2Proof.Machine

/-! ### R70, R71, R73: shift steps, the table and the bit-serial form -/

/-- Shift steps are the iteration of one. -/
theorem crcShifts_eq_iterate (k : Nat) (r : Word16) : crcShifts k r = crcShift^[k] r := by
  induction k generalizing r with
  | zero => rfl
  | succ k ih => exact ih (crcShift r)

/-- R71: every printed entry is the generated one. -/
theorem tab_eq_tabEntry : ∀ i : Byte, tab i = tabEntry i := by decide

theorem crcShift_of_lt {r : Word16} (h : r.toNat < 2 ^ 15) : crcShift r = r <<< 1 := by
  have hm : r.msb = false := by simpa [BitVec.msb_eq_decide] using h
  simp only [crcShift, hm, Bool.false_eq_true, if_false]

/-- R70: while no 1 leaves, shift steps only shift. -/
theorem crcShifts_of_lt {k : Nat} (hk : k ≤ 16) {r : Word16} (h : r.toNat < 2 ^ (16 - k)) :
    crcShifts k r = r <<< k := by
  induction k generalizing r with
  | zero => exact (BitVec.shiftLeft_zero r).symm
  | succ k ih =>
    have hpow : 2 ^ (16 - k) = 2 * 2 ^ (16 - (k + 1)) := by
      rw [← Nat.pow_succ']
      congr 1
      omega
    have hle : 2 ^ (16 - (k + 1)) ≤ 2 ^ 15 := Nat.pow_le_pow_right (by decide) (by omega)
    have hr : (r <<< 1).toNat < 2 ^ (16 - k) := by
      rw [BitVec.toNat_shiftLeft, Nat.shiftLeft_eq]
      omega
    rw [crcShifts, crcShift_of_lt (by omega), ih (by omega) hr, ← BitVec.shiftLeft_add, Nat.add_comm]

theorem half_xor_half (b1 b0 c1 c0 : Byte) : half b1 b0 ^^^ half c1 c0 = half (b1 ^^^ c1) (b0 ^^^ c0) :=
  BitVec.xor_append

theorem half_shiftLeft_eight (b1 b0 : Byte) : half b1 b0 <<< 8 = half b0 0#8 := by
  apply BitVec.eq_of_toNat_eq
  simp only [BitVec.toNat_shiftLeft, Nat.shiftLeft_eq, half_toNat, BitVec.toNat_ofNat]
  omega

/-- R73: the register's low byte moves up unchanged. -/
theorem crcShifts_eight_low (lo : Byte) : crcShifts 8 (half 0#8 lo) = half lo 0#8 := by
  have hlt : (half 0#8 lo).toNat < 2 ^ (16 - 8) := by simpa [half_toNat] using lo.isLt
  rw [crcShifts_of_lt (by decide) hlt, half_shiftLeft_eight]

/-- R73: the register's high byte and the message byte make up the index of the table, and the shifts of the low byte
are apart from the shifts of the index. -/
theorem upd_eq_updSerial (c : Word16) (b : Byte) : upd c b = updSerial c b := by
  obtain ⟨hi, lo, rfl⟩ : ∃ hi lo, c = half hi lo := ⟨_, _, (half_extractLsb c).symm⟩
  calc upd (half hi lo) b
    _ = half lo 0#8 ^^^ tabEntry (hi ^^^ b) := by
      rw [upd, (extractLsb_half hi lo).1, tab_eq_tabEntry, half_shiftLeft_eight]
    _ = crcShifts 8 (half 0#8 lo) ^^^ crcShifts 8 (half (hi ^^^ b) 0#8) := by
      rw [crcShifts_eight_low]
      rfl
    _ = crcShifts 8 (half hi lo ^^^ half b 0#8) := by
      simp only [← crcShifts_xor, half_xor_half, BitVec.xor_zero, BitVec.zero_xor]

/-! ### R79: the update is linear and loses nothing -/

/-- R79 law 3, for one byte. -/
theorem upd_xor (c d : Word16) (b e : Byte) : upd (c ^^^ d) (b ^^^ e) = upd c b ^^^ upd d e := by
  have hpad : (b ^^^ e) ++ 0#8 = (b ++ 0#8) ^^^ (e ++ 0#8) := (half_xor_half b 0#8 e 0#8).symm
  simp only [upd_eq_updSerial, updSerial, ← crcShifts_xor, hpad]
  ac_rfl

/-- R79 law 3, for two strings of one length. -/
theorem crcFold_xor {s e : List Byte} (h : s.length = e.length) (c d : Word16) :
    crcFold (c ^^^ d) (List.zipWith (· ^^^ ·) s e) = crcFold c s ^^^ crcFold d e := by
  induction s generalizing e c d with
  | nil =>
    cases List.length_eq_zero_iff.mp h.symm
    rfl
  | cons a s ih =>
    cases e with
    | nil => cases h
    | cons x e =>
      simp only [List.zipWith_cons_cons, crcFold_cons, upd_xor]
      exact ih (Nat.succ.inj h) _ _

/-- R79 law 4's reason: the polynomial's constant term is 1, so bit 0 shows whether a 1 has left. -/
theorem eq_zero_of_crcShift_eq_zero {r : Word16} (h : crcShift r = 0#16) : r = 0#16 := by
  by_cases hr : r.toNat < 2 ^ 15
  · rw [crcShift_of_lt hr] at h
    have hn := congrArg BitVec.toNat h
    simp only [BitVec.toNat_shiftLeft, Nat.shiftLeft_eq, BitVec.toNat_ofNat] at hn
    apply BitVec.eq_of_toNat_eq
    rw [BitVec.toNat_ofNat]
    omega
  · have hm : r.msb = true := by simpa [BitVec.msb_eq_decide] using hr
    have hbit := congrArg (BitVec.getLsbD · 0) h
    simp [crcShift, hm, Config.poly] at hbit

theorem crcShift_injective : Function.Injective crcShift := by
  intro a b h
  have hz : crcShift (a ^^^ b) = 0#16 := by rw [crcShift_xor, h, BitVec.xor_self]
  exact BitVec.xor_eq_zero_iff.mp (eq_zero_of_crcShift_eq_zero hz)

theorem crcShifts_injective (k : Nat) : Function.Injective (crcShifts k) := by
  rw [funext (crcShifts_eq_iterate k)]
  exact crcShift_injective.iterate k

/-- R79 law 4: different register values stay different under one byte. -/
theorem upd_injective_left (b : Byte) : Function.Injective (upd · b) := by
  intro c d h
  simp only [upd_eq_updSerial] at h
  exact (BitVec.xor_left_inj _).mp (crcShifts_injective 8 h)

/-- R79 law 4: different bytes give different register values. -/
theorem upd_injective_right (c : Word16) : Function.Injective (upd c) := by
  intro b e h
  simp only [upd_eq_updSerial] at h
  exact (BitVec.append_left_inj _).mp ((BitVec.xor_right_inj c).mp (crcShifts_injective 8 h))

theorem crcFold_injective (s : List Byte) : Function.Injective (crcFold · s) := by
  induction s with
  | nil => exact fun _ _ h => h
  | cons b s ih => exact ih.comp (upd_injective_left b)

/-- R79 law 4, for any change of one byte. -/
theorem crcFold_set_ne {s : List Byte} {k : Nat} (h : k < s.length) {b : Byte} (hb : b ≠ s[k]) (c : Word16) :
    crcFold c (s.set k b) ≠ crcFold c s := by
  induction s generalizing k c with
  | nil => cases h
  | cons a s ih =>
    cases k with
    | zero => exact fun he => hb (upd_injective_right c (crcFold_injective s he))
    | succ k => exact ih (Nat.lt_of_succ_lt_succ h) hb (upd c a)

/-! ### R76: a checksum streamed by commands -/

/-- R39: every sequence of commands runs to its end, and what becomes of `crc` is what each command makes of it. -/
theorem runAll_crc (is : List Instr) (s : State) : ∃ t, runAll is s = some t ∧ t.crc = is.foldl crcAfter s.crc := by
  induction is generalizing s with
  | nil => exact ⟨s, rfl, rfl⟩
  | cons i is ih =>
    rw [runAll_cons (exec_eq s i), List.foldl_cons, ← effect_crc]
    exact ih _

/-- R76: without CRC.INIT, `crc` is the fold of the bytes of the CRC.BYTE commands. -/
theorem foldl_crcAfter_eq_crcFold {is : List Instr} (h : .crcInit ∉ is) (c : Word16) :
    is.foldl crcAfter c = crcFold c (is.filterMap crcByteOf) := by
  induction is generalizing c with
  | nil => rfl
  | cons i is ih =>
    have hrest : .crcInit ∉ is := fun hi => h (List.mem_cons_of_mem i hi)
    cases i with
    | crcInit => exact absurd List.mem_cons_self h
    | crcByte b => exact ih hrest (upd c b)
    | fpParse | rxStart | rxFrame | rxTick | rxAbort | rxByte | rd | frameF0 | frameFN => exact ih hrest c

/-! ### The statements -/

/-- Settles O1. -/
theorem crcInitLoadsInitialValue : Obligations.CrcInitLoadsInitialValue := by
  unfold Obligations.CrcInitLoadsInitialValue
  exact fun s hw => ⟨rfl, step_present_of_ok hw rfl,
    fun b bs => step_present_of_error (e := .badLength 0x10#8) hw rfl⟩

/-- Settles O2: `foldl_crcAfter_eq_crcFold` from the value CRC.INIT loads. -/
theorem crcByteFoldsOneByte : Obligations.CrcByteFoldsOneByte := by
  unfold Obligations.CrcByteFoldsOneByte
  refine fun s hw => ⟨fun b => ⟨rfl, step_present_of_ok hw rfl⟩, fun bs hlen => ?_, fun is hi => ?_⟩
  · have hbad : decode s.cfg (0x11#8 :: bs) = .error (.badLength 0x11#8) := formB_of_length_ne .crcByte hlen
    exact step_present_of_error hw hbad
  · obtain ⟨t, hrun, hcrc⟩ := runAll_crc (.crcInit :: is) s
    exact ⟨t, hrun, hcrc.trans (foldl_crcAfter_eq_crcFold hi Config.crcInit)⟩

/-- Settles O3. -/
theorem tableIsGeneratedByPolynomial : Obligations.TableIsGeneratedByPolynomial := by
  unfold Obligations.TableIsGeneratedByPolynomial
  exact fun i => (tab_eq_tabEntry i).trans (crcShifts_eq_iterate 8 _)

/-- Settles O4. -/
theorem tableUpdateEqualsBitSerial : Obligations.TableUpdateEqualsBitSerial := by
  unfold Obligations.TableUpdateEqualsBitSerial
  exact fun c b => (upd_eq_updSerial c b).trans (crcShifts_eq_iterate 8 _)

/-- Settles O5: law 3 is `crcFold_xor` with 0 as the second register value. -/
theorem checksumIsIncrementalAndAffine : Obligations.ChecksumIsIncrementalAndAffine := by
  unfold Obligations.ChecksumIsIncrementalAndAffine
  refine ⟨crcFold_append Config.crcInit, fun s e hlen => ?_⟩
  have h := crcFold_xor hlen Config.crcInit 0#16
  rwa [BitVec.xor_zero] at h

/-- Settles O6: a byte with one bit flipped is another byte. -/
theorem oneFlippedBitChangesChecksum : Obligations.OneFlippedBitChangesChecksum := by
  unfold Obligations.OneFlippedBitChangesChecksum
  intro s k j h
  have hmask : 1#8 <<< j.val ≠ 0#8 := by
    revert j
    decide
  exact crcFold_set_ne h (fun he => hmask (by simpa using he)) Config.crcInit

end Sys2Proof.Machine
end

section
/-! Proofs of the statements of 41_parser.md: when a raw frame is malformed (R60, R87), the marker against hexadecimal
characters (R90), and the command FP.PARSE (R86). -/

namespace Sys2Proof

/-! ### R60: hexadecimal characters in a raw frame -/

section HexCharacters

variable {cfg : Config} {raw : List Byte} {k : Nat}

/-- R60: the raw frame has a hexadecimal character at position `k`. -/
def HexAt (raw : List Byte) (k : Nat) : Prop := ∃ c v, raw[k]? = some c ∧ hexVal c = some v

theorem HexAt.lt_length (h : HexAt raw k) : k < raw.length := by
  obtain ⟨c, -, hc, -⟩ := h
  exact (List.getElem?_eq_some_iff.mp hc).1

theorem hexAt_drop (n : Nat) : HexAt (raw.drop n) k ↔ HexAt raw (n + k) := by
  simp only [HexAt, List.getElem?_drop]

/-- R56: a frame has an 8-bit field in front exactly when its first two characters are hexadecimal. -/
theorem hexAt_zero_one_iff :
    HexAt raw 0 ∧ HexAt raw 1 ↔ ∃ c1 c0 rest v, raw = c1 :: c0 :: rest ∧ hexByte c1 c0 = some v := by
  constructor
  · intro ⟨h1, h0⟩
    match raw, h1, h0 with
    | c1 :: c0 :: rest, ⟨_, a, rfl, ha⟩, ⟨_, b, rfl, hb⟩ =>
      have hv := (hexByte_isSome_iff c1 c0).mpr ⟨Option.isSome_of_eq_some ha, Option.isSome_of_eq_some hb⟩
      obtain ⟨v, hv⟩ := Option.isSome_iff_exists.mp hv
      exact ⟨c1, c0, rest, v, rfl, hv⟩
  · rintro ⟨c1, c0, rest, v, rfl, hv⟩
    obtain ⟨h1, h0⟩ := (hexByte_isSome_iff c1 c0).mp (Option.isSome_of_eq_some hv)
    obtain ⟨a, ha⟩ := Option.isSome_iff_exists.mp h1
    obtain ⟨b, hb⟩ := Option.isSome_iff_exists.mp h0
    exact ⟨⟨c1, a, rfl, ha⟩, ⟨c0, b, rfl, hb⟩⟩

/-- R60: a frame without the marker parses exactly when its index is hexadecimal. -/
theorem parseFrame_isSome_of_plain (h : raw.take cfg.markerLen ≠ cfg.marker) :
    (parseFrame cfg raw).isSome = true ↔ HexAt raw 0 ∧ HexAt raw 1 := by
  rw [hexAt_zero_one_iff, Option.isSome_iff_exists]
  simp only [parseFrame_eq_some_of_plain h]
  constructor
  · rintro ⟨-, i1, i0, rest, i, hraw, hi, -⟩
    exact ⟨i1, i0, rest, i, hraw, hi⟩
  · rintro ⟨i1, i0, rest, i, hraw, hi⟩
    exact ⟨_, i1, i0, rest, i, hraw, hi, rfl⟩

/-- R60: a frame with the marker parses exactly when count and index behind it are hexadecimal. -/
theorem parseFrame_isSome_of_marked (h : raw.take cfg.markerLen = cfg.marker) :
    (parseFrame cfg raw).isSome = true ↔
      HexAt raw cfg.markerLen ∧ HexAt raw (cfg.markerLen + 1) ∧ HexAt raw (cfg.markerLen + 2) ∧
        HexAt raw (cfg.markerLen + 3) := by
  have count_iff := hexAt_zero_one_iff (raw := raw.drop cfg.markerLen)
  have index_iff := hexAt_zero_one_iff (raw := raw.drop (cfg.markerLen + 2))
  rw [hexAt_drop, hexAt_drop] at count_iff index_iff
  rw [Option.isSome_iff_exists]
  simp only [parseFrame_eq_some_of_marked h]
  constructor
  · rintro ⟨-, c1, c0, i1, i0, rest, c, i, hd, hc, hi, -⟩
    have hd2 : raw.drop (cfg.markerLen + 2) = i1 :: i0 :: rest := by
      rw [← List.drop_drop, hd]
      rfl
    obtain ⟨h0, h1⟩ := count_iff.mpr ⟨c1, c0, _, c, hd, hc⟩
    obtain ⟨h2, h3⟩ := index_iff.mpr ⟨i1, i0, _, i, hd2, hi⟩
    exact ⟨h0, h1, h2, h3⟩
  · rintro ⟨h0, h1, h2, h3⟩
    obtain ⟨c1, c0, tail, c, hd, hc⟩ := count_iff.mp ⟨h0, h1⟩
    obtain ⟨i1, i0, rest, i, hd2, hi⟩ := index_iff.mp ⟨h2, h3⟩
    have htail : tail = i1 :: i0 :: rest := by
      rw [← hd2, ← List.drop_drop, hd]
      rfl
    exact ⟨_, c1, c0, i1, i0, rest, c, i, htail ▸ hd, hc, hi, rfl⟩

/-- R60: a verdict given under a condition that needs `n` bytes fails for want of bytes or of the condition. -/
theorem eq_none_iff_short_or {α : Type} {o : Option α} {p : Prop} {len n : Nat} (ho : o.isSome = true ↔ p)
    (hp : p → n ≤ len) : o = none ↔ len < n ∨ n ≤ len ∧ ¬ p := by
  rw [← Option.not_isSome_iff_eq_none, ho]
  constructor
  · intro h
    exact (Nat.lt_or_ge len n).imp_right fun hn => ⟨hn, h⟩
  · rintro (hn | ⟨-, h⟩)
    · exact fun h => absurd (hp h) (Nat.not_le_of_lt hn)
    · exact h

end HexCharacters

/-! ### R86: the datum of FP.PARSE -/

/-- R86: a parsed frame's datum is assembled from four bytes. -/
theorem Machine.parseDatum_some (p : ParsedFrame) : Machine.parseDatum (some p) =
    word (0#6 ++ BitVec.ofBool p.count.isSome ++ 1#1) (p.count.getD 0#8) p.index (BitVec.ofNat 8 p.off) := rfl

/-- R86: the flags in the datum's most significant byte, and the zeros above them. -/
theorem flagByte_fields : ∀ hasCount : Bool,
    let w : Byte := 0#6 ++ BitVec.ofBool hasCount ++ 1#1
    w.getLsbD 0 = true ∧ w.getLsbD 1 = hasCount ∧ w.extractLsb 7 2 = 0#6 := by
  decide

/-- R86: bits 24 and 25 and the zeros above them are in the datum's most significant byte. -/
theorem flags_of_extractLsb {d : Word32} {b : Bool} (h : d.extractLsb 31 24 = 0#6 ++ BitVec.ofBool b ++ 1#1) :
    d.getLsbD 24 = true ∧ d.getLsbD 25 = b ∧ d.extractLsb 31 26 = 0#6 := by
  have hbit (k : Nat) : (d.extractLsb 31 24).getLsbD k = (decide (k < 31 - 24 + 1) && d.getLsbD (24 + k)) :=
    BitVec.getLsbD_extractLsb
  have htop : (d.extractLsb 31 24).extractLsb 7 2 = d.extractLsb 31 26 := by
    apply BitVec.eq_of_toNat_eq
    simp only [BitVec.extractLsb_toNat]
    omega
  obtain ⟨hvalid, hcount, hzero⟩ := flagByte_fields b
  rw [← h] at hvalid hcount hzero
  exact ⟨(hbit 0).symm.trans hvalid, (hbit 1).symm.trans hcount, htop.symm.trans hzero⟩

/-- R6, R86: the slice's start is reported without loss. -/
theorem parseFrame_off_toNat {cfg : Config} {raw : List Byte} {p : ParsedFrame} (hw : cfg.wf = true)
    (hlen : raw.length ≤ cfg.maxFrame) (hp : parseFrame cfg raw = some p) : (BitVec.ofNat 8 p.off).toNat = p.off := by
  have hoff := (parseFrame_off hp).2
  have hraw := Laws.FormatLength.length_byte hw hlen
  simp only [BitVec.toNat_ofNat] at hraw ⊢
  omega

end Sys2Proof

namespace Sys2Proof.Machine

/-! ### The statements -/

/-- Settles O10: the marker test chooses the format; either format then fails by its length or by a character. -/
theorem malformedInExactlyFourCases : Obligations.MalformedInExactlyFourCases := by
  unfold Obligations.MalformedInExactlyFourCases
  intro cfg raw isF0 isHex
  have isF0_iff : isF0 ↔ raw.take cfg.markerLen = cfg.marker := and_iff_right_of_imp markerLen_le_of_take_eq
  by_cases hm : raw.take cfg.markerLen = cfg.marker
  · simp only [isF0_iff.mpr hm, true_and, not_true_eq_false, false_and, or_false]
    exact eq_none_iff_short_or (parseFrame_isSome_of_marked hm) fun ⟨_, _, _, h3⟩ => HexAt.lt_length h3
  · simp only [mt isF0_iff.mp hm, not_false_eq_true, true_and, false_and, false_or]
    exact eq_none_iff_short_or (parseFrame_isSome_of_plain hm) fun ⟨_, h1⟩ => HexAt.lt_length h1

/-- Settles O12: `take_ne_marker_of_hexHead`. -/
theorem hexHeadIsNeverF0 : Obligations.HexHeadIsNeverF0 := by
  unfold Obligations.HexHeadIsNeverF0
  exact fun cfg c1 c0 rest hw h1 h0 => take_ne_marker_of_hexHead hw h1 h0

/-- Settles O13: the datum is `parseDatum`, four bytes whose fields `extractLsb_word` reads. -/
theorem fpParseReportsTheParse : Obligations.FpParseReportsTheParse := by
  unfold Obligations.FpParseReportsTheParse
  intro s raw hw hlen
  refine ⟨step_present_of_ok hw (formL_encode hw 0x20#8 hlen .fpParse), ⟨_, rfl, ?_⟩,
    fun n bs hn => ?_, step_present_of_error (e := .badLength 0x20#8) hw rfl, fun n bs hn hmax => ?_⟩
  · cases hp : parseFrame s.cfg raw with
    | none => rfl
    | some p =>
      rw [parseDatum_some]
      obtain ⟨hflags, hcount, hindex, hoff⟩ := extractLsb_word
        (0#6 ++ BitVec.ofBool p.count.isSome ++ 1#1) (p.count.getD 0#8) p.index (BitVec.ofNat 8 p.off)
      exact ⟨(congrArg BitVec.toNat hoff).trans (parseFrame_off_toNat hw hlen hp), hindex, hcount,
        flags_of_extractLsb hflags⟩
  · have hbad : decode s.cfg (0x20#8 :: n :: bs) = .error (.badLength 0x20#8) := formL_of_length_ne .fpParse hn
    exact step_present_of_error hw hbad
  · have hlong : decode s.cfg (0x20#8 :: n :: bs) = .error (.frameTooLong n) := formL_of_tooLong .fpParse hn hmax
    exact step_present_of_error hw hlong

end Sys2Proof.Machine
end

section
/-! Laws of the slot store, of `Accept` and of `Finish` that the statements of 42_reassembly.md rest on: the
concatenation by ascending index (R106), and what `Accept` makes of a frame (R100, R101, R105). -/

namespace Sys2Proof.Machine

/-! ### R17, R106: the indices, and the concatenation by ascending index -/

section Slots

variable {m : SlotMemory}

/-- R17: a canonical store lists no index twice. -/
theorem SlotMemory.nodup_indices (h : m.wf) : (m.map fun e => e.1.toNat).Nodup :=
  (List.pairwise_map.mpr h).imp fun hab => Nat.ne_of_lt hab

/-- An index above the first listed one is looked up among the rest. -/
theorem SlotMemory.read_cons_of_lt {j : Byte} {k : Nat} (hj : j.toNat < k) (hk : k < 256) (t : List Byte) :
    SlotMemory.read ((j, t) :: m) (BitVec.ofNat 8 k) = m.read (BitVec.ofNat 8 k) := by
  have hne : BitVec.ofNat 8 k ≠ j := fun hc => by
    rw [← hc, BitVec.toNat_ofNat] at hj
    omega
  rw [read_cons, if_neg hne]

/-- The slots from `lo` on, in a canonical store with no index below `lo`. -/
theorem SlotMemory.flatMap_read_range' (h : m.wf) {lo : Nat} (hm : ∀ e ∈ m, lo ≤ e.1.toNat) :
    (List.range' lo (256 - lo)).flatMap (fun k => (m.read (BitVec.ofNat 8 k)).getD []) = m.concat := by
  induction m generalizing lo with
  | nil => simp
  | cons e m ih =>
    obtain ⟨j, t⟩ := e
    obtain ⟨hj, hrest⟩ := List.pairwise_cons.mp h
    have hlo : lo ≤ j.toNat := hm (j, t) List.mem_cons_self
    have hsplit : List.range' lo (256 - lo) =
        List.range' lo (j.toNat - lo) ++ j.toNat :: List.range' (j.toNat + 1) (256 - (j.toNat + 1)) := by
      have := j.isLt
      rw [← List.range'_succ, show j.toNat = lo + (j.toNat - lo) by omega, Nat.add_sub_cancel_left,
        List.range'_append_1]
      congr 1
      omega
    have hbelow : ∀ k ∈ List.range' lo (j.toNat - lo),
        (SlotMemory.read ((j, t) :: m) (BitVec.ofNat 8 k)).getD [] = [] := by
      intro k hk
      have hkj : (BitVec.ofNat 8 k).toNat < j.toNat := by
        rw [List.mem_range'_1] at hk
        rw [BitVec.toNat_ofNat]
        omega
      rw [read_eq_none_of_lt (List.forall_mem_cons.mpr ⟨hkj, fun e he => hkj.trans (hj e he)⟩)]
      rfl
    have habove : ∀ k ∈ List.range' (j.toNat + 1) (256 - (j.toNat + 1)),
        (SlotMemory.read ((j, t) :: m) (BitVec.ofNat 8 k)).getD [] =
          (SlotMemory.read m (BitVec.ofNat 8 k)).getD [] := by
      intro k hk
      rw [List.mem_range'_1] at hk
      rw [read_cons_of_lt (by omega) (by omega)]
    rw [hsplit, List.flatMap_append, List.flatMap_cons, List.flatMap_eq_nil_iff.mpr hbelow,
      List.flatMap_congr habove, ih hrest hj]
    simp [read_cons, concat]

/-- R106: the concatenation, slot by slot from 0 to 255. -/
theorem SlotMemory.concat_eq_flatMap_range (h : m.wf) :
    m.concat = (List.range 256).flatMap (fun k => (m.read (BitVec.ofNat 8 k)).getD []) := by
  rw [List.range_eq_range']
  exact (flatMap_read_range' h fun _ _ => Nat.zero_le _).symm

end Slots

/-! ### R100, R101, R105, R106: `Accept` and `Finish` -/

section Accept

variable {s t : State} {count : Option Byte} {k : Byte} {slice : List Byte}

/-- R104: a count equal to the recorded one is no conflict. -/
theorem conflicts_eq_false (h : ∀ c, count = some c → s.expValid = true → s.expTotal = c) (occ : Nat) :
    conflicts s count occ = false := by
  cases count with
  | none => rfl
  | some c =>
    cases hv : s.expValid with
    | false => simp [conflicts, hv]
    | true => simp [conflicts, h c rfl hv]

/-- R100, R101: without a conflict both orders record the slice and learn the count. -/
theorem State.collect_of_agrees (h : ∀ c, count = some c → s.expValid = true → s.expTotal = c) (k : Byte)
    (slice : List Byte) :
    s.collect count k slice =
      { s with slots := s.slots.write k slice, expTotal := count.getD s.expTotal,
               expValid := s.expValid || count.isSome } := by
  cases ho : s.cfg.staleOrder with
  | checkThenRecord =>
    rw [State.collect_checkThenRecord ho, State.learnCount_eq, conflicts_eq_false h]
    simp [State.recordSlice]
  | recordThenCheck =>
    rw [State.collect_recordThenCheck ho, State.learnCount_eq, conflicts_eq_false (s := s.recordSlice k slice) h]
    simp [State.recordSlice]

/-- R100, R101: `Accept` up to the completion test. -/
def State.collected (s : State) (count : Option Byte) (k : Byte) (slice : List Byte) : State :=
  { s.collect count k slice with timer := 0#32, st := .collecting }

/-- R105: what `Accept` does when the completion test holds. -/
theorem State.accept_of_complete (h : (s.collected count k slice).completionTest = true) :
    s.accept count k slice = (s.collected count k slice).finish := if_pos h

/-- R105: what `Accept` does when it does not. -/
theorem State.accept_of_incomplete (h : (s.collected count k slice).completionTest = false) :
    s.accept count k slice = s.collected count k slice := if_neg (Bool.eq_false_iff.mp h)

/-- R106: a payload that validates is recovered. -/
theorem State.finish_of_validate {body : List Byte} (h : validate s.slots.concat = some body) :
    s.finish = { s with slots := [], out := body, outcome := .success, st := .complete } := by
  rcases s.finish_cases with ⟨b, hb, he⟩ | ⟨hn, -⟩
  · rw [he, Option.some.inj (hb.symm.trans h)]
  · simp [hn] at h

/-- R106: anything else is a mismatch. -/
theorem State.finish_of_mismatch (h : validate s.slots.concat = none) :
    s.finish = { s with slots := [], out := [], outcome := .checksumMismatch, st := .complete } := by
  rcases s.finish_cases with ⟨b, hb, -⟩ | ⟨-, he⟩
  · simp [hb] at h
  · exact he

/-- R105: `Accept` runs `Finish` exactly when a count is known and the occupancy equals it. -/
theorem State.accept_of_collected (h : s.collected count k slice = t) :
    (t.expValid = true ∧ t.occ = t.expTotal.toNat → s.accept count k slice = t.finish) ∧
    (¬ (t.expValid = true ∧ t.occ = t.expTotal.toNat) → s.accept count k slice = t) := by
  subst h
  rw [← State.completionTest_iff]
  exact ⟨State.accept_of_complete, fun hn => State.accept_of_incomplete (Bool.eq_false_iff.mpr hn)⟩

/-- R103: `Finish` keeps what is known of the count. -/
@[simp] theorem State.finish_expTotal (s : State) : s.finish.expTotal = s.expTotal := by
  rcases s.finish_cases with ⟨body, -, h⟩ | ⟨-, h⟩ <;> rw [h]

@[simp] theorem State.finish_expValid (s : State) : s.finish.expValid = s.expValid := by
  rcases s.finish_cases with ⟨body, -, h⟩ | ⟨-, h⟩ <;> rw [h]

/-- R95: `Finish` ends the cycle. -/
@[simp] theorem State.finish_st (s : State) : s.finish.st = .complete := by
  rcases s.finish_cases with ⟨body, -, h⟩ | ⟨-, h⟩ <;> rw [h]

/-- R103: `Accept` learns the count of a frame that has one. -/
theorem State.accept_expTotal (s : State) (count : Option Byte) (k : Byte) (slice : List Byte) :
    (s.accept count k slice).expTotal = count.getD s.expTotal := by
  rcases s.accept_cases count k slice with ⟨-, h⟩ | ⟨-, h⟩ <;> simp [h, State.collect_expTotal]

theorem State.accept_expValid (s : State) (count : Option Byte) (k : Byte) (slice : List Byte) :
    (s.accept count k slice).expValid = (s.expValid || count.isSome) := by
  rcases s.accept_cases count k slice with ⟨-, h⟩ | ⟨-, h⟩ <;> simp [h, State.collect_expValid]

/-- R95: where `Accept` leads. -/
theorem State.accept_st (s : State) (count : Option Byte) (k : Byte) (slice : List Byte) :
    (s.accept count k slice).st =
      if (s.collect count k slice).completionTest then .complete else .collecting := by
  rcases s.accept_cases count k slice with ⟨hc, h⟩ | ⟨hc, h⟩ <;> simp [h, hc]

/-- R5: `Finish` does not read the parameters. -/
theorem State.finish_withCfg (s : State) (cfg : Config) :
    { s with cfg := cfg }.finish = { s.finish with cfg := cfg } := by
  simp only [State.finish]
  cases validate s.slots.concat <;> rfl

theorem State.finishIfComplete_withCfg (s : State) (cfg : Config) :
    { s with cfg := cfg }.finishIfComplete = { s.finishIfComplete with cfg := cfg } := by
  have ht : { s with cfg := cfg }.completionTest = s.completionTest := rfl
  simp only [State.finishIfComplete, ht]
  split
  · exact s.finish_withCfg cfg
  · rfl

/-- R101: without a conflict `Accept` does not read `STALE_ORDER`. -/
theorem State.accept_withCfg (h : ∀ c, count = some c → s.expValid = true → s.expTotal = c) (cfg : Config) :
    { s with cfg := cfg }.accept count k slice = { s.accept count k slice with cfg := cfg } := by
  have hs : { s with cfg := cfg }.collected count k slice = { s.collected count k slice with cfg := cfg } := by
    simp only [State.collected, State.collect_of_agrees h, State.collect_of_agrees (s := { s with cfg := cfg }) h]
  calc { s with cfg := cfg }.accept count k slice
    _ = ({ s.collected count k slice with cfg := cfg } : State).finishIfComplete := congrArg State.finishIfComplete hs
    _ = { s.accept count k slice with cfg := cfg } := State.finishIfComplete_withCfg _ cfg

end Accept

end Sys2Proof.Machine
end

section
/-! The frames of the reference packer as encodings of wire formats (R130, R131, R136), and as commands. -/

namespace Sys2Proof.Machine

/-! ### R130: the frames of a packed transfer -/

/-- R131, R136: frame `k` of `n`: only frame 0 bears the marker, and it declares `n`. -/
def transferFrame (n k : Nat) (slice : List Byte) : Instr :=
  if k = 0 then .frameF0 (BitVec.ofNat 8 n) 0#8 slice else .frameFN (BitVec.ofNat 8 k) slice

/-- R130: the part of chunk `k` that frame `k` carries as its slice. -/
def packSlice (cfg : Config) (c : Nat) (w : List Byte) (k : Nat) : List Byte :=
  if k = 0 then (chunk c w 0).drop (cfg.markerLen + 2) else chunk c w k

section Packer

variable {cfg : Config} {c m n : Nat} {p w : List Byte}

/-- R130 step 3: the first chunks are the beginning of what is cut. -/
theorem flatMap_chunk (c : Nat) (w : List Byte) (n : Nat) : (List.range n).flatMap (chunk c w) = w.take (n * c) := by
  induction n with
  | zero => simp
  | succ n ih =>
    rw [List.range_succ, List.flatMap_append, ih, List.flatMap_singleton, chunk, Nat.succ_mul, List.take_add]

/-- R136: the slices together are all chunks together without marker and count. -/
theorem flatten_packSlice (h : cfg.markerLen + 2 ≤ (chunk c w 0).length) :
    ((List.range (n + 1)).map (packSlice cfg c w)).flatten = (w.take ((n + 1) * c)).drop (cfg.markerLen + 2) := by
  rw [← flatMap_chunk, List.range_succ_eq_map, List.map_cons, List.flatten_cons, List.flatMap_cons,
    List.drop_append_of_le_length h, List.map_map, List.flatMap_map]
  rfl

/-- R130 step 2: what the Wire-Wrapped Payload is behind marker and count. -/
theorem wrapped_drop (cfg : Config) (p : List Byte) :
    (wrapped cfg p).drop (cfg.markerLen + 2) = p ++ toHex4 cfg.hexUpper (checksum p) := by
  simp only [wrapped, List.append_assoc, marker_append_drop]
  rfl

theorem length_wrapped (cfg : Config) (p : List Byte) : (wrapped cfg p).length = cfg.markerLen + 6 + p.length := by
  simp only [wrapped, List.length_append, length_marker, toHex4, List.length_cons, List.length_nil]
  omega

/-- R130 step 3: the chunks cover what is cut, and there is a first one. -/
theorem chunkCount_covers {c len : Nat} (hc : 0 < c) (hl : 0 < len) :
    1 ≤ chunkCount c len ∧ len ≤ chunkCount c len * c := by
  unfold chunkCount
  have hlt := Nat.lt_div_mul_add (a := len + c - 1) hc
  exact ⟨(Nat.one_le_div_iff hc).mpr (by omega), by omega⟩

theorem chunk_zero (c : Nat) (w : List Byte) : chunk c w 0 = w.take c := by
  rw [chunk, Nat.zero_mul, List.drop_zero]

/-- R130 step 2: chunk 0 begins with the marker. -/
theorem chunk_zero_take_marker (h : cfg.markerLen ≤ c) :
    (chunk c (wrapped cfg p) 0).take cfg.markerLen = cfg.marker := by
  rw [chunk_zero, List.take_take, Nat.min_eq_left h, wrapped, List.append_assoc, List.append_assoc, marker_append_take]

/-- R130 step 5: each frame of the packer is the encoding of a wire format. -/
theorem packFrame_eq_encode (h : cfg.markerLen ≤ c) (k : Nat) :
    packFrame cfg c n (wrapped cfg p) k = encode cfg (transferFrame n k (packSlice cfg c (wrapped cfg p) k)) := by
  by_cases hk : k = 0
  · subst hk
    have hstamp : stampCount cfg n (chunk c (wrapped cfg p) 0) =
        (cfg.marker ++ toHex2 cfg.hexUpper (BitVec.ofNat 8 n)) ++ packSlice cfg c (wrapped cfg p) 0 := by
      rw [stampCount, chunk_zero_take_marker h]
      rfl
    have hlen : cfg.markerLen + 2 = (cfg.marker ++ toHex2 cfg.hexUpper (BitVec.ofNat 8 n)).length := by
      rw [List.length_append]
      rfl
    rw [packFrame, if_pos rfl, hstamp, hlen, List.take_left, List.drop_left]
    rfl
  · simp only [packFrame, transferFrame, packSlice, hk, if_false, encode]

/-- R130, R131, R136: a packed transfer is the payload and its checksum cut into slices, one for each frame. -/
theorem frames_of_pack {fs : List (List Byte)} (hm : cfg.markerLen + 4 ≤ m) (h : pack cfg m p = .ok fs) :
    ∃ slices : List (List Byte), 1 ≤ slices.length ∧ slices.length ≤ 255 ∧
      slices.flatten = p ++ toHex4 cfg.hexUpper (checksum p) ∧
      fs = slices.mapIdx fun k slice => encode cfg (transferFrame slices.length k slice) := by
  have hlen := length_wrapped cfg p
  obtain ⟨hone, hcover⟩ := chunkCount_covers (c := m - 2) (len := (wrapped cfg p).length) (by omega) (by omega)
  have hchunk : cfg.markerLen + 2 ≤ (chunk (m - 2) (wrapped cfg p) 0).length := by
    rw [chunk_zero, List.length_take]
    omega
  unfold pack at h
  split at h
  · cases h
  · rename_i hle
    cases h
    refine ⟨(List.range (chunkCount (m - 2) (wrapped cfg p).length)).map (packSlice cfg (m - 2) (wrapped cfg p)),
      ?_, ?_, ?_, ?_⟩
    · simpa using hone
    · simpa using hle
    · obtain ⟨n, hn⟩ := Nat.exists_eq_add_of_le' hone
      rw [hn] at hcover ⊢
      rw [flatten_packSlice hchunk, List.take_of_length_le hcover, wrapped_drop]
    · refine List.ext_getElem (by simp) fun k _ _ => ?_
      simp [packFrame_eq_encode (c := m - 2) (cfg := cfg) (by omega)]

end Packer

/-! ### R132: the indices of a transfer -/

section Indices

variable {slices : List (List Byte)} {k j : Nat} {slice : List Byte}

/-- R132: at most 255 frames have indices below 256. -/
theorem lt_of_getElem? (hlen : slices.length ≤ 255) (hk : slices[k]? = some slice) : k < 256 := by
  have hlt := (List.getElem?_eq_some_iff.mp hk).1
  omega

theorem index_toNat (hk : k < 256) : (BitVec.ofNat 8 k).toNat = k := Nat.mod_eq_of_lt hk

theorem index_inj (hk : k < 256) (hj : j < 256) : BitVec.ofNat 8 k = BitVec.ofNat 8 j ↔ k = j := by
  rw [BitVec.toNat_eq, index_toNat hk, index_toNat hj]

end Indices

/-! ### R53, R54, R98: the frames of a transfer as commands -/

section Frames

variable {cfg : Config} {n k k' : Nat} {slice slice' : List Byte}

/-- R131: the count that frame `k` of `n` declares. -/
def transferCount (n k : Nat) : Option Byte := if k = 0 then some (BitVec.ofNat 8 n) else none

/-- R98: the RX.FRAME that carries frame `k` of `n`. -/
def frameCommand (cfg : Config) (n k : Nat) (slice : List Byte) : Instr :=
  .rxFrame (encode cfg (transferFrame n k slice))

/-- R136: a frame of a transfer decodes to what it is. -/
theorem decodeFrame_transferFrame (hw : cfg.wf = true) (n k : Nat) (slice : List Byte) :
    decodeFrame cfg (encode cfg (transferFrame n k slice)) = some (transferFrame n k slice) := by
  refine decodeFrame_encode hw ?_
  unfold transferFrame
  split <;> rfl

/-- R98: RX.FRAME with a frame of a transfer receives its count, index and slice. -/
theorem exec_frameCommand {s : State} (hw : s.cfg.wf = true) (n k : Nat) (slice : List Byte) :
    exec (frameCommand s.cfg n k slice) s = acceptFrame (transferCount n k) (BitVec.ofNat 8 k) slice s := by
  rw [frameCommand, ← exec_of_decodeFrame (decodeFrame_transferFrame hw n k slice), transferFrame, transferCount]
  by_cases hk : k = 0
  · rw [if_pos hk, if_pos hk, hk]
    rfl
  · rw [if_neg hk, if_neg hk]
    rfl

/-- R136: frames of one transfer with different indices are different. -/
theorem index_eq_of_frameCommand_eq (hw : cfg.wf = true) (hk : k < 256) (hk' : k' < 256)
    (h : frameCommand cfg n k slice = frameCommand cfg n k' slice') : k = k' := by
  have hd := decodeFrame_transferFrame hw n k slice
  rw [Instr.rxFrame.inj h, decodeFrame_transferFrame hw, Option.some.injEq, transferFrame, transferFrame] at hd
  split at hd <;> split at hd
  · omega
  · cases hd
  · cases hd
  · injection hd with hi
    exact ((index_inj hk' hk).mp hi).symm

end Frames

/-- R130, R136: the frames of a packed transfer by their indices. -/
theorem mem_transfer_iff {cfg : Config} {slices : List (List Byte)} {f : List Byte} :
    f ∈ slices.mapIdx (fun k slice => encode cfg (transferFrame slices.length k slice)) ↔
      ∃ k slice, slices[k]? = some slice ∧ .rxFrame f = frameCommand cfg slices.length k slice := by
  simp only [List.mem_mapIdx, List.getElem?_eq_some_iff, frameCommand, Instr.rxFrame.injEq]
  constructor
  · rintro ⟨k, hk, rfl⟩
    exact ⟨k, _, ⟨hk, rfl⟩, rfl⟩
  · rintro ⟨k, _, ⟨hk, rfl⟩, rfl⟩
    exact ⟨k, hk, rfl⟩

end Sys2Proof.Machine
end

section
/-! Proof of order independence (R112): while a packed transfer arrives, each valid slot holds the transfer's slice of
its index, and the count, once known, is the transfer's; the occupancy reaches the count with the last missing frame
only, and then the concatenation is the payload and its checksum. -/

namespace Sys2Proof.Machine

/-- The entries of a list by their positions, with nothing behind its end. -/
theorem flatMap_getElem?_range {slices : List (List Byte)} {n : Nat} (h : slices.length ≤ n) :
    (List.range n).flatMap (fun k => slices[k]?.getD []) = slices.flatten := by
  induction slices generalizing n with
  | nil => simp
  | cons slice slices ih =>
    obtain ⟨n, rfl⟩ := Nat.exists_eq_add_of_le' (Nat.le_of_add_left_le h)
    rw [List.range_succ_eq_map, List.flatMap_cons, List.flatMap_map, List.flatten_cons,
      ← ih (Nat.le_of_succ_le_succ h)]
    rfl

/-! ### R112: a cycle while the frames of one transfer arrive -/

/-- An active cycle that has accepted only frames of the transfer with the given slices, and seen at most `ticks`
RX.TICK since the last one; `limit` is the compare value of RX.START. -/
structure Gathering (cfg : Config) (slices : List (List Byte)) (limit : Word32) (ticks : Nat) (s : State) : Prop where
  cfg_wf : cfg.wf = true
  length_le : slices.length ≤ 255
  cfg_eq : s.cfg = cfg
  tmo_eq : s.tmo = limit
  active : s.st = .idle ∨ s.st = .collecting
  timer_le : s.timer.toNat ≤ ticks
  slotsWf : s.slots.wf
  read_of_valid : ∀ k, s.slotValid k = true → s.slots.read k = slices[k.toNat]?
  total_eq : s.expValid = true → s.expTotal = BitVec.ofNat 8 slices.length
  valid_of_first : s.slotValid 0#8 = true → s.expValid = true

section Gathering

variable {cfg : Config} {slices : List (List Byte)} {limit : Word32} {ticks : Nat} {s : State} {k : Nat}
  {slice : List Byte}

/-- R49: a response changes nothing of the cycle. -/
theorem Gathering.withResponse (h : Gathering cfg slices limit ticks s) (r : Option Response) :
    Gathering cfg slices limit ticks { s with response := r } := { h with }

/-- R96: RX.START begins with no frame. -/
theorem Gathering.start (hw : s.cfg.wf = true) (hlen : slices.length ≤ 255) (limit : Word32) :
    Gathering s.cfg slices limit 0 (s.eraseCycle .idle limit) where
  cfg_wf := hw
  length_le := hlen
  cfg_eq := rfl
  tmo_eq := rfl
  active := .inl rfl
  timer_le := Nat.le_refl 0
  slotsWf := SlotMemory.wf_nil
  read_of_valid := nofun
  total_eq := nofun
  valid_of_first := nofun

/-- R107, R108: a tick within the limit only counts, if it does that. -/
theorem Gathering.tick (h : Gathering cfg slices limit ticks s) (hl : ticks + 1 ≤ limit.toNat) :
    Gathering cfg slices limit (ticks + 1) (effect .rxTick s) ∧
      ∀ j, (effect .rxTick s).slotValid j = s.slotValid j := by
  have htimer := h.timer_le
  have hinc := satIncr_toNat s.timer
  simp only [effect]
  split
  · rcases s.countTick_cases with ⟨-, he⟩ | ⟨hlt, -⟩
    · rw [he]
      exact ⟨{ h with timer_le := by dsimp only; omega }, fun _ => rfl⟩
    · rw [h.tmo_eq] at hlt
      omega
  · exact ⟨{ h with timer_le := by omega }, fun _ => rfl⟩

/-- R112: frame 0 declares the count that is recorded, if one is. -/
theorem Gathering.agrees (h : Gathering cfg slices limit ticks s) (k : Nat) (c : Byte)
    (hc : transferCount slices.length k = some c) (hv : s.expValid = true) : s.expTotal = c := by
  unfold transferCount at hc
  split at hc
  · rw [h.total_eq hv]
    exact Option.some.inj hc
  · cases hc

/-- R100, R101, R112: a frame of the transfer goes to its slot, under either stale order. -/
theorem Gathering.collected_slotValid (h : Gathering cfg slices limit ticks s) (k : Nat) (slice : List Byte)
    (j : Byte) :
    (s.collected (transferCount slices.length k) (BitVec.ofNat 8 k) slice).slotValid j = true ↔
      j = BitVec.ofNat 8 k ∨ s.slotValid j = true := by
  rw [State.collected, State.collect_of_agrees (h.agrees k), State.slotValid, SlotMemory.read_write]
  by_cases hj : j = BitVec.ofNat 8 k <;> simp [hj, State.slotValid]

/-- R112: the cycle goes on gathering the transfer. -/
theorem Gathering.collected (h : Gathering cfg slices limit ticks s) (hk : slices[k]? = some slice) :
    Gathering cfg slices limit 0 (s.collected (transferCount slices.length k) (BitVec.ofNat 8 k) slice) := by
  have hvalid := h.collected_slotValid k slice
  have hk256 := lt_of_getElem? h.length_le hk
  rw [State.collected, State.collect_of_agrees (h.agrees k)] at hvalid ⊢
  exact {
    cfg_wf := h.cfg_wf
    length_le := h.length_le
    cfg_eq := h.cfg_eq
    tmo_eq := h.tmo_eq
    active := .inr rfl
    timer_le := Nat.le_refl 0
    slotsWf := SlotMemory.write_wf h.slotsWf _ _
    read_of_valid := fun j hj => by
      dsimp only
      rw [SlotMemory.read_write]
      split
      · rename_i hjk
        rw [hjk, index_toNat hk256, hk]
      · rename_i hjk
        exact h.read_of_valid j (((hvalid j).mp hj).resolve_left hjk)
    total_eq := fun hv => by
      by_cases h0 : k = 0
      · simp [transferCount, h0]
      · simpa [transferCount, h0] using h.total_eq (by simpa [transferCount, h0] using hv)
    valid_of_first := fun hr => by
      by_cases h0 : k = 0
      · simp [transferCount, h0]
      · have hne : 0#8 ≠ BitVec.ofNat 8 k := fun hc => h0 ((index_inj (by decide) hk256).mp hc).symm
        simp [h.valid_of_first (((hvalid 0#8).mp hr).resolve_left hne)] }

/-! #### The occupancy and the concatenation -/

/-- R17: the indices listed are those of the valid slots. -/
theorem Gathering.mem_indices_iff (h : Gathering cfg slices limit ticks s) (n : Nat) :
    n ∈ s.slots.map (fun e => e.1.toNat) ↔ n < slices.length ∧ s.slotValid (BitVec.ofNat 8 n) = true := by
  have hlen := h.length_le
  rw [SlotMemory.mem_indices_iff h.slotsWf]
  refine ⟨fun ⟨hlt, hs⟩ => ⟨?_, hs⟩, fun ⟨hlt, hs⟩ => ⟨by omega, hs⟩⟩
  rw [h.read_of_valid _ hs, index_toNat hlt] at hs
  simpa using hs

/-- R18, R112: while a frame is missing, the occupancy is below the count. -/
theorem Gathering.occ_lt (h : Gathering cfg slices limit ticks s) {last : Nat} (hlast : last < slices.length)
    (hmiss : s.slotValid (BitVec.ofNat 8 last) = false) : s.occ < slices.length := by
  have hnot : last ∉ s.slots.map (fun e => e.1.toNat) := fun hm => by
    simpa [hmiss] using (h.mem_indices_iff last).mp hm
  have hnodup := List.nodup_cons.mpr ⟨hnot, SlotMemory.nodup_indices h.slotsWf⟩
  have hsub : last :: s.slots.map (fun e => e.1.toNat) ⊆ List.range slices.length :=
    List.cons_subset.mpr ⟨List.mem_range.mpr hlast, fun n hn => List.mem_range.mpr ((h.mem_indices_iff n).mp hn).1⟩
  simpa [State.occ] using (hnodup.subperm hsub).length_le

/-- R105, R112: so the completion test fails. -/
theorem Gathering.completionTest_eq_false (h : Gathering cfg slices limit ticks s) {last : Nat}
    (hlast : last < slices.length) (hmiss : s.slotValid (BitVec.ofNat 8 last) = false) :
    s.completionTest = false := by
  have hocc := h.occ_lt hlast hmiss
  have hlen := h.length_le
  refine Bool.eq_false_iff.mpr fun hc => ?_
  obtain ⟨hv, hc⟩ := (State.completionTest_iff s).mp hc
  rw [h.total_eq hv, index_toNat (by omega)] at hc
  omega

section Complete

variable (hall : ∀ k < slices.length, s.slotValid (BitVec.ofNat 8 k) = true)

include hall

/-- R18, R112: when no frame is missing, the occupancy is the count. -/
theorem Gathering.occ_eq (h : Gathering cfg slices limit ticks s) : s.occ = slices.length := by
  have hperm := (List.perm_ext_iff_of_nodup (SlotMemory.nodup_indices h.slotsWf) List.nodup_range).mpr fun n => by
    rw [h.mem_indices_iff, List.mem_range]
    exact and_iff_left_of_imp (hall n)
  simpa [State.occ] using hperm.length_eq

/-- R105, R112: so the completion test holds; frame 0 has brought the count. -/
theorem Gathering.completionTest_eq_true (h : Gathering cfg slices limit ticks s) (hpos : 0 < slices.length) :
    s.completionTest = true := by
  have hv := h.valid_of_first (hall 0 hpos)
  have hlen := h.length_le
  refine (State.completionTest_iff s).mpr ⟨hv, ?_⟩
  rw [h.occ_eq hall, h.total_eq hv, index_toNat (by omega)]

/-- R106, R112: and the slots hold the whole transfer. -/
theorem Gathering.concat_eq (h : Gathering cfg slices limit ticks s) : s.slots.concat = slices.flatten := by
  have hlen := h.length_le
  rw [SlotMemory.concat_eq_flatMap_range h.slotsWf, ← flatMap_getElem?_range (n := 256) (by omega)]
  refine List.flatMap_congr fun k hk => congrArg (Option.getD · []) ?_
  have hindex := index_toNat (List.mem_range.mp hk)
  cases hv : s.slotValid (BitVec.ofNat 8 k) with
  | true => rw [h.read_of_valid _ hv, hindex]
  | false =>
    have hk : slices.length ≤ k := Nat.le_of_not_lt fun hk => by simp [hall k hk] at hv
    rw [List.getElem?_eq_none hk]
    exact Option.not_isSome_iff_eq_none.mp (Bool.eq_false_iff.mp hv)

end Complete

/-! #### Commands -/

variable {last : Nat}

/-- R105, R112: a frame that leaves another one missing is collected, and the cycle goes on. -/
theorem Gathering.receive (h : Gathering cfg slices limit ticks s) (hk : slices[k]? = some slice)
    (hlast : last < slices.length) (hne : last ≠ k) (hmiss : s.slotValid (BitVec.ofNat 8 last) = false) :
    ∃ t, exec (frameCommand cfg slices.length k slice) s = .next t ∧ Gathering cfg slices limit 0 t ∧
      t.slotValid (BitVec.ofNat 8 last) = false ∧
      ∀ j, t.slotValid j = true ↔ j = BitVec.ofNat 8 k ∨ s.slotValid j = true := by
  have hg := h.collected hk
  have hvalid := h.collected_slotValid k slice
  have hlen := h.length_le
  have hmiss' : (s.collected (transferCount slices.length k) (BitVec.ofNat 8 k) slice).slotValid
      (BitVec.ofNat 8 last) = false := by
    rw [← Bool.not_eq_true, hvalid, index_inj (by omega) (lt_of_getElem? hlen hk)]
    simp [hmiss, hne]
  have hw := h.cfg_wf
  obtain rfl := h.cfg_eq
  rw [exec_frameCommand hw, acceptFrame_of_active h.active,
    State.accept_of_incomplete (hg.completionTest_eq_false hlast hmiss')]
  exact ⟨_, rfl, hg.withResponse _, hmiss', hvalid⟩

/-- R112: the frames of a transfer and ticks within the limit, while frame `last` stays missing: every slot whose frame
has come is filled. -/
theorem Gathering.run (h : Gathering cfg slices limit ticks s) (hlast : last < slices.length)
    (hmiss : s.slotValid (BitVec.ofNat 8 last) = false) {is : List Instr}
    (his : ∀ i ∈ is, i = .rxTick ∨ ∃ k slice, last ≠ k ∧ slices[k]? = some slice ∧
      i = frameCommand cfg slices.length k slice)
    (hticks : ticksBounded limit.toNat ticks is = true) :
    ∃ u n, runAll is s = some u ∧ Gathering cfg slices limit n u ∧
      ∀ k slice, slices[k]? = some slice →
        s.slotValid (BitVec.ofNat 8 k) = true ∨ frameCommand cfg slices.length k slice ∈ is →
        u.slotValid (BitVec.ofNat 8 k) = true := by
  induction is generalizing s ticks with
  | nil => exact ⟨s, ticks, rfl, h, fun k slice _ hr => hr.resolve_right List.not_mem_nil⟩
  | cons i is ih =>
    have hrest := fun j hj => his j (List.mem_cons_of_mem i hj)
    rcases his i List.mem_cons_self with rfl | ⟨j, sl, hj, hsl, rfl⟩
    · simp only [ticksBounded, Bool.and_eq_true, decide_eq_true_eq] at hticks
      obtain ⟨hg, hvalid⟩ := h.tick hticks.1
      have hg := hg.withResponse (some (answer .rxTick s))
      obtain ⟨u, n, hrun, hu, hfilled⟩ := ih hg ((hvalid _).trans hmiss) hrest hticks.2
      refine ⟨u, n, (runAll_cons (exec_eq s .rxTick) is).trans hrun, hu, fun k slice hk hr => hfilled k slice hk ?_⟩
      rcases hr with hr | hr
      · exact .inl ((hvalid _).trans hr)
      · exact .inr ((List.mem_cons.mp hr).resolve_left nofun)
    · obtain ⟨t, hexec, hg, hmiss', hvalid⟩ := h.receive hsl hlast hj hmiss
      obtain ⟨u, n, hrun, hu, hfilled⟩ := ih hg hmiss' hrest hticks
      refine ⟨u, n, (runAll_cons hexec is).trans hrun, hu, fun k slice hk hr => hfilled k slice hk ?_⟩
      rcases hr with hr | hr
      · exact .inl ((hvalid _).mpr (.inr hr))
      · refine (List.mem_cons.mp hr).imp_left fun he => (hvalid _).mpr (.inl (congrArg _ ?_))
        exact index_eq_of_frameCommand_eq h.cfg_wf (lt_of_getElem? h.length_le hk) (lt_of_getElem? h.length_le hsl) he

/-- R106, R112: the frame that was missing completes the transfer. -/
theorem Gathering.receive_last (h : Gathering cfg slices limit ticks s) {p : List Byte} {upper : Bool}
    (hp : slices.flatten = p ++ toHex4 upper (checksum p)) (hk : slices[k]? = some slice)
    (hall : ∀ j < slices.length, j ≠ k → s.slotValid (BitVec.ofNat 8 j) = true) :
    ∃ v, exec (frameCommand cfg slices.length k slice) s = .next v ∧ v.st = .complete ∧ v.outcome = .success ∧
      v.out = p := by
  have hg := h.collected hk
  have hall' : ∀ j < slices.length, (s.collected (transferCount slices.length k) (BitVec.ofNat 8 k) slice).slotValid
      (BitVec.ofNat 8 j) = true := fun j hj =>
    (h.collected_slotValid k slice _).mpr ((eq_or_ne j k).imp (congrArg _) (hall j hj))
  have hpos : 0 < slices.length := Nat.zero_lt_of_lt (List.getElem?_eq_some_iff.mp hk).1
  have hvalid := (validate_eq_some_iff _ p).mpr
    ⟨_, (hg.concat_eq hall').trans hp, rfl, hex4_toHex4 upper (checksum p)⟩
  have hw := h.cfg_wf
  obtain rfl := h.cfg_eq
  rw [exec_frameCommand hw, acceptFrame_of_active h.active,
    State.accept_of_complete (hg.completionTest_eq_true hall' hpos), State.finish_of_validate hvalid]
  exact ⟨_, rfl, rfl, rfl, rfl⟩

end Gathering

/-- Settles O52: the cycle gathers the transfer (`Gathering.run`) until the missing frame completes it
(`Gathering.receive_last`). -/
theorem arrivalOrderIsIrrelevant : Obligations.ArrivalOrderIsIrrelevant := by
  unfold Obligations.ArrivalOrderIsIrrelevant
  intro s m p fs limit before last hw hm _ hpack hbefore hlast hcover hnew hticks
  obtain ⟨slices, -, hlen, hflat, rfl⟩ := frames_of_pack hm hpack
  obtain ⟨l, slice, hl, hcommand⟩ := mem_transfer_iff.mp hlast
  have hothers : ∀ i ∈ before, i = .rxTick ∨ ∃ k sl, l ≠ k ∧ slices[k]? = some sl ∧
      i = frameCommand s.cfg slices.length k sl := by
    intro i hi
    refine (hbefore i hi).imp_right fun ⟨f, hf, hif⟩ => ?_
    obtain ⟨k, sl, hk, hfk⟩ := mem_transfer_iff.mp hf
    refine ⟨k, sl, fun hkl => hnew ?_, hk, hif.trans hfk⟩
    subst hkl
    rwa [hcommand, ← Option.some.inj (hk.symm.trans hl), ← hfk, ← hif]
  have hstart := (Gathering.start hw hlen limit).withResponse (some (answer (.rxStart limit) s))
  obtain ⟨u, n, hrun, hu, hfilled⟩ :=
    hstart.run (List.getElem?_eq_some_iff.mp hl).1 rfl hothers hticks
  obtain ⟨v, hexec, hv⟩ := hu.receive_last hflat hl fun j hj hjl => by
    have hsl := List.getElem?_eq_getElem hj
    refine hfilled j _ hsl (.inr ?_)
    rcases hcover _ (mem_transfer_iff.mpr ⟨j, _, hsl, rfl⟩) with hin | heq
    · exact hin
    · exact absurd (index_eq_of_frameCommand_eq hw (lt_of_getElem? hlen hsl) (lt_of_getElem? hlen hl)
        ((congrArg Instr.rxFrame heq).trans hcommand)) hjl
  exact ⟨u, v, (runAll_cons (exec_eq s (.rxStart limit)) before).trans hrun, hu.active, hcommand ▸ hexec, hv⟩

end Sys2Proof.Machine
end

section
/-! Proofs of the other statements of 42_reassembly.md. A tick, a malformed frame and a command outside an active cycle
get their equations first. -/

namespace Sys2Proof.Machine

/-! ### R107, R108: ticks -/

section Ticks

variable {s : State}

theorem execRxTick_of_counted (h : s.tickCounted = true) :
    exec .rxTick s = onlyAnswers s.countTick .ok s.countTick.status := if_pos h

theorem State.countTick_of_le (h : (satIncr s.timer).toNat ≤ s.tmo.toNat) :
    s.countTick = { s with timer := satIncr s.timer } :=
  (s.countTick_cases.resolve_right fun hlt => Nat.not_lt_of_le h hlt.1).2

theorem State.countTick_of_lt (h : s.tmo.toNat < (satIncr s.timer).toNat) :
    s.countTick = { s with timer := satIncr s.timer, slots := [], out := [], outcome := .timeout, st := .timedOut } :=
  (s.countTick_cases.resolve_left fun hle => hle.1 h).2

/-- R108, R113: in COLLECTING, ticks only count until the timer, saturating, is above the compare value. -/
theorem runAll_ticks (hs : s.st = .collecting) {k : Nat} (hk : min (s.timer.toNat + k) 0xFFFFFFFF ≤ s.tmo.toNat) :
    ∃ t, runAll (List.replicate k .rxTick) s = some t ∧ t.st = .collecting ∧
      t.timer.toNat = min (s.timer.toNat + k) 0xFFFFFFFF ∧ t.tmo = s.tmo ∧ t.slots = s.slots := by
  induction k generalizing s with
  | zero =>
    have := s.timer.isLt
    exact ⟨s, rfl, hs, by omega, rfl, rfl⟩
  | succ k ih =>
    have hinc := satIncr_toNat s.timer
    have hexec := execRxTick_of_counted (s.tickCounted_iff.mpr (.inl hs))
    rw [State.countTick_of_le (by omega)] at hexec
    obtain ⟨t, hrun, hst, htimer, htmo, hslots⟩ :=
      ih (s := { s with timer := satIncr s.timer, response := _ }) hs (by dsimp only; omega)
    rw [List.replicate_succ, runAll_cons hexec]
    exact ⟨t, hrun, hst, by dsimp only at htimer; omega, htmo, hslots⟩

/-- R95: where a tick leads. -/
theorem State.countTick_st (s : State) :
    s.countTick.st = if s.tmo.toNat < min (s.timer.toNat + 1) 0xFFFFFFFF then .timedOut else s.st := by
  rw [← satIncr_toNat]
  split
  · rename_i h
    rw [State.countTick_of_lt h]
  · rename_i h
    rw [State.countTick_of_le (Nat.le_of_not_lt h)]

end Ticks

/-! ### R99: malformed frames -/

theorem execRxFrame_of_malformed {s : State} {raw : List Byte} (ha : s.cycleActive = true)
    (hp : parseFrame s.cfg raw = none) :
    execRxFrame raw s = onlyAnswers { s with malf := true } .discarded { s with malf := true }.status := by
  simp only [execRxFrame, ha, hp, if_true, respondStatus_eq]

/-! ### R109: outside an active cycle -/

section Inactive

variable {s : State}

theorem State.cycleActive_eq_false (hi : s.st ≠ .idle) (hc : s.st ≠ .collecting) : s.cycleActive = false :=
  Bool.eq_false_iff.mpr fun ha => (s.cycleActive_iff.mp ha).elim hi hc

/-- R109: outside an active cycle an instruction other than RX.START and RX.ABORT changes `crc` at most. -/
theorem effect_of_inactive (ha : s.cycleActive = false) {i : Instr} (hi : clearsFlags i = false) :
    effect i s = { s with crc := crcAfter s.crc i } := by
  cases i with
  | rxStart | rxAbort => cases hi
  | crcInit | crcByte | fpParse | rxByte | rd => rfl
  | rxFrame raw =>
    simp only [effect, ha, Bool.or_false, State.receive_inactive s ha]
    split <;> rfl
  | rxTick =>
    exact if_neg fun ht => Bool.eq_false_iff.mp ha (s.cycleActive_of_tickCounted ht)
  | frameF0 | frameFN => exact State.receive_inactive s ha _ _ _

/-- R109: RX.FRAME and RX.TICK are IGNORED there. -/
theorem exec_of_inactive (ha : s.cycleActive = false) {i : Instr} (hi : i = .rxTick ∨ ∃ raw, i = .rxFrame raw) :
    exec i s = onlyAnswers s .ignored s.status := by
  have hn := Bool.eq_false_iff.mp ha
  rcases hi with rfl | ⟨raw, rfl⟩
  · rcases execRxTick_cases s with ⟨hc, -⟩ | ⟨-, hi, -⟩ | ⟨-, -, h⟩
    · exact absurd (s.cycleActive_of_tickCounted hc) hn
    · exact absurd (s.cycleActive_iff.mpr (.inl hi)) hn
    · exact h
  · exact if_neg hn

/-- R109: so is every sequence of them. -/
theorem runAll_of_inactive_of_ignored (ha : s.cycleActive = false) {is : List Instr} (hne : is ≠ [])
    (his : ∀ i ∈ is, i = .rxTick ∨ ∃ raw, i = .rxFrame raw) :
    runAll is s = some { s with response := some ⟨.ignored, s.status⟩ } := by
  induction is generalizing s with
  | nil => exact absurd rfl hne
  | cons i is ih =>
    rw [runAll_cons (exec_of_inactive ha (his i List.mem_cons_self))]
    cases is with
    | nil => rfl
    | cons j is => exact ih (s := { s with response := _ }) ha nofun fun i hi => his i (List.mem_cons_of_mem _ hi)

/-- R109: every sequence without RX.START and RX.ABORT changes `crc` and the response at most. -/
theorem runAll_of_inactive (ha : s.cycleActive = false) {is : List Instr} (his : ∀ i ∈ is, clearsFlags i = false) :
    ∃ c r, runAll is s = some { s with crc := c, response := r } := by
  induction is generalizing s with
  | nil => exact ⟨s.crc, s.response, rfl⟩
  | cons i is ih =>
    rw [runAll_cons (exec_eq s i), effect_of_inactive ha (his i List.mem_cons_self)]
    exact ih (s := { s with crc := _, response := _ }) ha fun j hj => his j (List.mem_cons_of_mem _ hj)

end Inactive

/-! ### R103: no count, no completion -/

section NoCount

variable {s : State}

/-- R103: no count is known, and the cycle has not ended in COMPLETE. -/
def NoCount (s : State) : Prop := s.expValid = false ∧ s.st ≠ .complete

theorem NoCount.receive (h : NoCount s) (k : Byte) (slice : List Byte) : NoCount (s.receive none k slice) := by
  obtain ⟨hv, hst⟩ := h
  cases ha : s.cycleActive with
  | false =>
    rw [State.receive_inactive s ha]
    exact ⟨hv, hst⟩
  | true =>
    have htest : (s.collect none k slice).completionTest = false := by
      simp [State.completionTest, State.collect_expValid, hv]
    rw [State.receive_active s ha, NoCount, State.accept_expValid, State.accept_st, htest, hv]
    exact ⟨rfl, nofun⟩

/-- R103: only a frame with a count changes that. -/
theorem NoCount.effect (h : NoCount s) {i : Instr} (hi : i.isCommand = true)
    (hf : ∀ raw p, i = .rxFrame raw → parseFrame s.cfg raw = some p → p.count = none) : NoCount (effect i s) := by
  cases i with
  | crcInit | crcByte | fpParse | rxByte | rd => exact h
  | rxStart | rxAbort => exact ⟨rfl, nofun⟩
  | rxFrame raw =>
    cases hp : parseFrame s.cfg raw with
    | none =>
      simp only [Machine.effect, hp]
      exact h
    | some p =>
      simp only [Machine.effect, hp, hf raw p rfl hp]
      exact h.receive _ _
  | rxTick =>
    obtain ⟨hv, hst⟩ := h
    simp only [Machine.effect]
    split
    · rcases s.countTick_cases with ⟨-, he⟩ | ⟨-, he⟩ <;> rw [he]
      · exact ⟨hv, hst⟩
      · exact ⟨hv, nofun⟩
    · exact ⟨hv, hst⟩
  | frameF0 | frameFN => cases hi

theorem NoCount.runAll (h : NoCount s) {is : List Instr} {t : State}
    (his : ∀ i ∈ is, i.isCommand = true ∧
      ∀ raw p, i = .rxFrame raw → parseFrame s.cfg raw = some p → p.count = none)
    (hrun : runAll is s = some t) : NoCount t := by
  induction is generalizing s with
  | nil =>
    cases hrun
    exact h
  | cons i is ih =>
    have hexec := exec_eq s i
    obtain ⟨hi, hf⟩ := his i List.mem_cons_self
    rw [runAll_cons hexec] at hrun
    refine ih (s := { Machine.effect i s with response := some (answer i s) }) (h.effect hi hf) (fun j hj => ?_) hrun
    rw [exec_cfg hexec]
    exact his j (List.mem_cons_of_mem i hj)

end NoCount

/-! ### R95: where a frame and a tick lead -/

section Transitions

variable (s : State)

theorem State.receive_st (count : Option Byte) (k : Byte) (slice : List Byte) :
    (s.receive count k slice).st =
      if s.cycleActive then if (s.collect count k slice).completionTest then .complete else .collecting else s.st := by
  rw [← State.accept_st, ← apply_ite State.st]
  rfl

theorem effect_rxFrame_st (raw : List Byte) :
    (effect (.rxFrame raw) s).st =
      (parseFrame s.cfg raw).elim s.st fun p => (s.receive p.count p.index (raw.drop p.off)).st := by
  simp only [effect]
  cases parseFrame s.cfg raw <;> rfl

theorem effect_rxTick_st :
    (effect .rxTick s).st =
      if (s.st = .collecting ∨ s.st = .idle ∧ s.cfg.idleTimeoutEn = true) ∧
        s.tmo.toNat < min (s.timer.toNat + 1) 0xFFFFFFFF then .timedOut else s.st := by
  simp only [effect, ← State.tickCounted_iff, ite_and, ← State.countTick_st]
  split <;> rfl

end Transitions

/-! ### R96, R97: erasing a cycle -/

/-- R25: RX.START and RX.ABORT answer the code of the control state they lead to. -/
theorem respondStatus_eraseCycle (s : State) (x : RxState) (t : Word32) :
    respondStatus .ok (s.eraseCycle x t) = onlyAnswers (s.eraseCycle x t) .ok (x.code.setWidth 32) := by
  rw [respondStatus_eq, s.status_eraseCycle]

/-! ### The statements -/

/-- Settles O14: what RX.START erases is `eraseCycle`, and STATUS is then the code of IDLE. -/
theorem rxStartBeginsACycle : Obligations.RxStartBeginsACycle := by
  unfold Obligations.RxStartBeginsACycle
  refine fun s t3 t2 t1 t0 hw => ⟨step_present_of_ok hw rfl, respondStatus_eraseCycle s .idle, fun bs hlen => ?_⟩
  have hbad : decode s.cfg (0x30#8 :: bs) = .error (.badLength 0x30#8) := formW_of_length_ne .rxStart hlen
  exact step_present_of_error hw hbad

/-- Settles O15: what `eraseCycle` leaves is the state after reset with `crc` and the port kept. -/
theorem rxAbortLeavesTheResetState : Obligations.RxAbortLeavesTheResetState := by
  unfold Obligations.RxAbortLeavesTheResetState
  exact fun s hw => ⟨step_present_of_ok hw rfl, respondStatus_eraseCycle s .off 0#32,
    fun b bs => step_present_of_error (e := .badLength 0x33#8) hw rfl⟩

/-- Settles O16: outside a cycle `exec_of_inactive`; in one, the parse decides. -/
theorem rxFrameIsIgnoredDiscardedOrAccepted : Obligations.RxFrameIsIgnoredDiscardedOrAccepted := by
  unfold Obligations.RxFrameIsIgnoredDiscardedOrAccepted
  intro s raw hw hlen
  refine ⟨step_present_of_ok hw (formL_encode hw 0x31#8 hlen .rxFrame), fun ⟨hi, hc⟩ => ?_, fun ha => ?_,
    fun n bs hn => ?_, step_present_of_error (e := .badLength 0x31#8) hw rfl, fun n bs hn hmax => ?_⟩
  · exact exec_of_inactive (State.cycleActive_eq_false hi hc) (.inr ⟨raw, rfl⟩)
  · cases hp : parseFrame s.cfg raw with
    | none => exact execRxFrame_of_malformed (s.cycleActive_iff.mpr ha) hp
    | some p => exact (execRxFrame_of_parse hp).trans (acceptFrame_of_active ha _ _ _)
  · have hbad : decode s.cfg (0x31#8 :: n :: bs) = .error (.badLength 0x31#8) := formL_of_length_ne .rxFrame hn
    exact step_present_of_error hw hbad
  · have hlong : decode s.cfg (0x31#8 :: n :: bs) = .error (.frameTooLong n) := formL_of_tooLong .rxFrame hn hmax
    exact step_present_of_error hw hlong

/-- Settles O18: the conflict is tested in the state before the frame, and the slice is written to what is kept. -/
theorem acceptChecksThenRecords : Obligations.AcceptChecksThenRecords := by
  unfold Obligations.AcceptChecksThenRecords
  intro s count i slice hwf horder conflict kept
  have hkept : kept.wf := by
    dsimp only [kept]
    split
    · exact SlotMemory.wf_nil
    · exact hwf
  refine ⟨kept.write i slice, SlotMemory.write_wf hkept i slice, SlotMemory.length_write hkept i slice,
    fun j => SlotMemory.read_write kept i j slice, State.accept_of_collected ?_⟩
  rw [State.collected, State.collect_checkThenRecord horder, State.learnCount_eq]
  rfl

/-- Settles O19: the conflict is tested in the state with the slice recorded. -/
theorem acceptRecordsThenChecks : Obligations.AcceptRecordsThenChecks := by
  unfold Obligations.AcceptRecordsThenChecks
  intro s count i slice hwf horder
  refine ⟨fun h => State.accept_withCfg h _, ?_⟩
  intro conflict
  have hconflict : conflict = conflicts s count (s.recordSlice i slice).occ :=
    congrArg (conflicts s count) (SlotMemory.length_write hwf i slice).symm
  refine ⟨if conflict then [] else s.slots.write i slice, ?_, ?_, fun j => ?_, State.accept_of_collected ?_⟩
  · split
    · exact SlotMemory.wf_nil
    · exact SlotMemory.write_wf hwf i slice
  · rw [apply_ite List.length, SlotMemory.length_write hwf]
    rfl
  · split
    · rfl
    · exact SlotMemory.read_write s.slots i j slice
  · rw [State.collected, State.collect_recordThenCheck horder, State.learnCount_eq, hconflict]
    rfl

/-- Settles O20: `validate` splits off the one field there can be, and the store's concatenation is the slots'. -/
theorem finishValidatesTheConcatenation : Obligations.FinishValidatesTheConcatenation := by
  unfold Obligations.FinishValidatesTheConcatenation
  intro s hwf cat
  have hcat : s.slots.concat = cat := SlotMemory.concat_eq_flatMap_range hwf
  rw [← hcat]
  refine ⟨fun body field hsplit hlen hfield => ?_, fun hno => ?_⟩
  · exact State.finish_of_validate ((validate_eq_some_iff _ body).mpr ⟨field, hsplit, hlen, hfield⟩)
  · refine State.finish_of_mismatch (Option.eq_none_iff_forall_ne_some.mpr fun body hv => ?_)
    obtain ⟨field, hsplit, hlen, hfield⟩ := (validate_eq_some_iff _ body).mp hv
    exact hno body field hsplit hlen hfield

/-- Settles O21: a counted tick is `countTick`, which compares the new timer with the compare value. -/
theorem rxTickCountsAndTimesOut : Obligations.RxTickCountsAndTimesOut := by
  unfold Obligations.RxTickCountsAndTimesOut
  intro s hw counted timer'
  refine ⟨step_present_of_ok hw rfl, fun hc hle => ?_, fun hc hlt => ?_, fun hi hen => ?_, fun hi hc => ?_,
    fun b bs => step_present_of_error (e := .badLength 0x32#8) hw rfl⟩
  · rw [execRxTick_of_counted (s.tickCounted_iff.mpr hc), State.countTick_of_le (Nat.le_of_not_lt hle)]
    rfl
  · rw [execRxTick_of_counted (s.tickCounted_iff.mpr hc), State.countTick_of_lt hlt]
    rfl
  · rcases execRxTick_cases s with ⟨hc, -⟩ | ⟨-, -, h⟩ | ⟨-, hn, -⟩
    · simp [State.tickCounted, hi, hen] at hc
    · exact h
    · exact absurd hi hn
  · exact exec_of_inactive (State.cycleActive_eq_false hi hc) (.inl rfl)

/-- Settles O22: `runAll_ticks` for as many ticks as the compare value, then one more. -/
theorem cycleSurvivesExactlyTmoTicks : Obligations.CycleSurvivesExactlyTmoTicks := by
  unfold Obligations.CycleSurvivesExactlyTmoTicks
  intro s hs h0
  have htimer : s.timer.toNat = 0 := congrArg BitVec.toNat h0
  have htmo := s.tmo.isLt
  refine ⟨fun k hk => ?_, fun hmax => ?_, fun hmax k => ?_⟩
  · obtain ⟨t, hrun, hst, ht, -, hslots⟩ := runAll_ticks hs (k := k) (by omega)
    exact ⟨t, hrun, hst, by omega, hslots⟩
  · obtain ⟨t, hrun, hst, ht, htmo', -⟩ := runAll_ticks hs (k := s.tmo.toNat) (by omega)
    have hne : s.tmo.toNat ≠ 0xFFFFFFFF := fun hc => hmax (BitVec.eq_of_toNat_eq hc)
    have hexec := execRxTick_of_counted (t.tickCounted_iff.mpr (.inl hst))
    have hlt : t.tmo.toNat < (satIncr t.timer).toNat := by
      rw [satIncr_toNat, htmo']
      omega
    rw [State.countTick_of_lt hlt] at hexec
    rw [List.replicate_succ', runAll_append hrun, runAll_cons hexec]
    exact ⟨_, rfl, rfl, rfl, rfl, rfl⟩
  · have hmax : s.tmo.toNat = 0xFFFFFFFF := congrArg BitVec.toNat hmax
    obtain ⟨t, hrun, hst, -, -, hslots⟩ := runAll_ticks hs (k := k) (by omega)
    exact ⟨t, hrun, hst, hslots⟩

/-- Settles O23, by induction on the sequence: outside a cycle no effect but on `crc` (`effect_of_inactive`). -/
theorem terminalStatesHold : Obligations.TerminalStatesHold := by
  unfold Obligations.TerminalStatesHold
  intro s is hi hc
  have ha := State.cycleActive_eq_false hi hc
  refine ⟨runAll_of_inactive_of_ignored ha, fun his => ?_⟩
  obtain ⟨c, r, hrun⟩ := runAll_of_inactive ha fun i hi => clearsFlags_eq_false (his i hi).1 (his i hi).2
  exact ⟨_, hrun, rfl⟩

/-- Settles O24: `NoCount` holds at the start of the sequence and every command in it keeps it. -/
theorem expectedTotalComesFromMarkerFrames : Obligations.ExpectedTotalComesFromMarkerFrames := by
  unfold Obligations.ExpectedTotalComesFromMarkerFrames
  refine fun s => ⟨fun c i slice => ⟨s.accept_expTotal (some c) i slice, ?_, s.accept_expTotal none i slice, ?_⟩,
    fun t is hv ha his hrun => ?_⟩
  · rw [s.accept_expValid (some c) i slice, Option.isSome_some, Bool.or_true]
  · rw [s.accept_expValid none i slice, Option.isSome_none, Bool.or_false]
  · have h : NoCount s := ⟨hv, by rcases ha with ha | ha <;> simp [ha]⟩
    exact (h.runAll his hrun).symm

/-- Settles O42: by what the step takes from the port, then by instruction. -/
theorem transitionTableIsComplete : Obligations.TransitionTableIsComplete := by
  unfold Obligations.TransitionTableIsComplete
  intro s hw
  refine ⟨fun rest t hp h => ?_, fun bytes e t hd h => ?_, fun i t h => ?_⟩
  · rw [step_of_port_reset hw hp] at h
    cases h
    rfl
  · rw [step_present_of_error hw hd] at h
    cases h
    rfl
  · have ht : t.st = (effect i s).st := by rw [eq_of_exec h]
    intro acceptedTo
    cases i with
    | crcInit | crcByte | fpParse | rxByte | rd | rxStart | rxAbort => exact ht
    | rxFrame raw =>
      have hst := ht.trans (effect_rxFrame_st s raw)
      cases hp : parseFrame s.cfg raw with
      | none => cases ha : s.cycleActive <;> simpa [hp] using hst
      | some p => cases ha : s.cycleActive <;> simpa [hp, ha, State.receive_st] using hst
    | rxTick => exact ht.trans (effect_rxTick_st s)
    | frameF0 c k slice => exact ht.trans (s.receive_st (some c) k slice)
    | frameFN k slice => exact ht.trans (s.receive_st none k slice)

/-- Settles O53: a validating field would read as two checksums, which one flipped bit makes different (O6). -/
theorem oneFlippedPayloadBitIsAMismatch : Obligations.OneFlippedPayloadBitIsAMismatch := by
  unfold Obligations.OneFlippedPayloadBitIsAMismatch
  intro s p upper k j hk hconcat
  refine State.finish_of_mismatch (Option.eq_none_iff_forall_ne_some.mpr fun body hv => ?_)
  obtain ⟨field, hsplit, hlen, hfield⟩ := (validate_eq_some_iff _ body).mp hv
  obtain ⟨rfl, rfl⟩ := List.append_inj' (hconcat.symm.trans hsplit) hlen.symm
  rw [hex4_toHex4, Option.some.injEq] at hfield
  exact oneFlippedBitChangesChecksum p k j hk hfield.symm

end Sys2Proof.Machine
end

section
/-! Proofs of the statements of 43_status_and_readout.md: what the two read commands answer, that they change nothing
else, and which commands of their opcodes do not decode (R120, R121). -/

namespace Sys2Proof.Machine

section Readout

variable {s : State}

/-! ### R120: RD -/

/-- R26, U12: there is no status register above 6. -/
theorem State.statusRegister_eq_none {r : Byte} (hr : 6 < r.toNat) : s.statusRegister r = none := by
  unfold State.statusRegister
  split
  case h_8 => rfl
  all_goals omega

theorem exec_rd_of_register {r : Byte} {d : Word32} (h : s.statusRegister r = some d) :
    exec (.rd r) s = onlyAnswers s .ok d := by
  rw [exec_eq, answer, h]
  rfl

theorem exec_rd_of_no_register {r : Byte} (h : s.statusRegister r = none) :
    exec (.rd r) s = onlyAnswers s .errRange 0#32 := by
  rw [exec_eq, answer, h]
  rfl

/-! ### R121: RX.BYTE -/

theorem exec_rxByte_of_not_success (i : Word16) (h : s.outcome ≠ .success) :
    exec (.rxByte i) s = onlyAnswers s .errState 0#32 := by
  rw [exec_eq, answer, if_neg h]
  rfl

theorem exec_rxByte_of_outByte_none {i : Word16} (h : s.outcome = .success) (hb : s.outByte i = none) :
    exec (.rxByte i) s = onlyAnswers s .errRange 0#32 := by
  rw [exec_eq, answer, if_pos h, hb]
  rfl

theorem exec_rxByte_of_outByte_some {i : Word16} {b : Byte} (h : s.outcome = .success) (hb : s.outByte i = some b) :
    exec (.rxByte i) s = onlyAnswers s .ok (b.setWidth 32) := by
  rw [exec_eq, answer, if_pos h, hb]
  rfl

end Readout

/-! ### The statements -/

/-- Settles O26: registers 0 to 6 are read off `statusRegister`, and there are no others. -/
theorem rdReadsEveryStatusRegister : Obligations.RdReadsEveryStatusRegister := by
  unfold Obligations.RdReadsEveryStatusRegister
  refine fun s hw => ⟨fun r => step_present_of_ok hw rfl, exec_rd_of_register rfl, exec_rd_of_register rfl,
    exec_rd_of_register rfl, exec_rd_of_register rfl, exec_rd_of_register rfl, exec_rd_of_register rfl,
    exec_rd_of_register rfl, fun r hr => exec_rd_of_no_register (State.statusRegister_eq_none hr), fun bs hlen => ?_⟩
  have hbad : decode s.cfg (0x40#8 :: bs) = .error (.badLength 0x40#8) := formB_of_length_ne .rd hlen
  exact step_present_of_error hw hbad

/-- Settles O27: the outcome is tested first, then the position against the payload's length. -/
theorem rxByteReadsTheRecoveredPayload : Obligations.RxByteReadsTheRecoveredPayload := by
  unfold Obligations.RxByteReadsTheRecoveredPayload
  refine fun s hw => ⟨fun h1 h0 => step_present_of_ok hw rfl, exec_rxByte_of_not_success,
    fun i hs hle => exec_rxByte_of_outByte_none hs (List.getElem?_eq_none hle),
    fun i hlt hs => exec_rxByte_of_outByte_some hs (List.getElem?_eq_getElem hlt), fun bs hlen => ?_⟩
  have hbad : decode s.cfg (0x34#8 :: bs) = .error (.badLength 0x34#8) := formH_of_length_ne .rxByte hlen
  exact step_present_of_error hw hbad

end Sys2Proof.Machine
end

section
/-! Proofs of the statements of 44_packer_reference.md: what the reference packer produces (R131, R133, R136), and that
its frames presented in order, one of the orders of R112, recover the payload (R137). -/

namespace Sys2Proof.Machine

/-! ### R130, R133: how many frames there are and how long they are -/

section PackLengths

variable {cfg : Config} {c k m n : Nat} {p w f : List Byte} {fs : List (List Byte)}

/-- R130 step 3: the chunk count is the number of `k` for which chunk `k` begins inside what is cut. -/
theorem lt_chunkCount_iff {len : Nat} (hc : 0 < c) : k < chunkCount c len ↔ k * c < len := by
  rw [chunkCount, ← Nat.succ_le_iff, Nat.le_div_iff_mul_le hc, Nat.succ_mul]
  omega

theorem length_chunk (c : Nat) (w : List Byte) (k : Nat) : (chunk c w k).length = min c (w.length - k * c) := by
  rw [chunk, List.length_take, List.length_drop]

/-- R131: a chunk that is not the last is full. -/
theorem length_chunk_of_not_last (hc : 0 < c) (hk : k + 1 < chunkCount c w.length) : (chunk c w k).length = c := by
  have hlt := (lt_chunkCount_iff hc).mp hk
  rw [Nat.succ_mul] at hlt
  rw [length_chunk]
  omega

/-- R131: the last chunk holds what the others leave, and that is not nothing. -/
theorem length_chunk_of_last (hc : 0 < c) (hk : k + 1 = chunkCount c w.length) :
    (chunk c w k).length = w.length - k * c ∧ 0 < (chunk c w k).length := by
  have hlt : k * c < w.length := (lt_chunkCount_iff hc).mp (by omega)
  have hle : ¬ (k + 1) * c < w.length := fun h => Nat.lt_irrefl _ (hk ▸ (lt_chunkCount_iff hc).mpr h)
  rw [Nat.succ_mul] at hle
  rw [length_chunk]
  omega

/-- R130 steps 4 and 5: the count takes the place of its placeholder, so the index alone makes a frame longer than its
chunk. -/
theorem length_packFrame (h : cfg.markerLen + 2 ≤ (chunk c w 0).length) (n k : Nat) :
    (packFrame cfg c n w k).length = (chunk c w k).length + 2 := by
  by_cases hk : k = 0
  · subst hk
    simp only [packFrame, if_true, stampCount, toHex2, List.length_append, List.length_take, List.length_drop,
      List.length_cons, List.length_nil]
    omega
  · simp only [packFrame, hk, if_false, toHex2, List.length_append, List.length_cons, List.length_nil]
    omega

/-- R130: marker and count stand in chunk 0. -/
theorem markerLen_add_two_le_chunk_zero (hm : cfg.markerLen + 4 ≤ m) (p : List Byte) :
    cfg.markerLen + 2 ≤ (chunk (m - 2) (wrapped cfg p) 0).length := by
  rw [length_chunk, length_wrapped]
  omega

/-- R133: `Pack` rejects above 255 frames. -/
theorem pack_eq_error_iff : pack cfg m p = .error .frameCountOverflow ↔
    255 < chunkCount (m - 2) (wrapped cfg p).length := by
  unfold pack
  split
  · exact iff_of_true rfl ‹_›
  · exact iff_of_false nofun ‹_›

/-- R130: the frames, one for each chunk. -/
theorem eq_of_pack (h : pack cfg m p = .ok fs) : fs = (List.range (chunkCount (m - 2) (wrapped cfg p).length)).map
    (packFrame cfg (m - 2) (chunkCount (m - 2) (wrapped cfg p).length) (wrapped cfg p)) := by
  unfold pack at h
  split at h
  · cases h
  · exact (Except.ok.inj h).symm

theorem length_of_pack (h : pack cfg m p = .ok fs) : fs.length = chunkCount (m - 2) (wrapped cfg p).length := by
  rw [eq_of_pack h, List.length_map, List.length_range]

/-- R131: the length of each frame of a packed transfer. -/
theorem length_getElem?_of_pack (hm : cfg.markerLen + 4 ≤ m) (h : pack cfg m p = .ok fs) (hf : fs[k]? = some f) :
    f.length = (chunk (m - 2) (wrapped cfg p) k).length + 2 := by
  rw [eq_of_pack h] at hf
  obtain ⟨hk, rfl⟩ := List.getElem?_eq_some_iff.mp hf
  rw [List.getElem_map, List.getElem_range]
  exact length_packFrame (markerLen_add_two_le_chunk_zero hm p) _ k

end PackLengths

/-! ### R137: a transfer in order is one of the orders of R112 -/

/-- R112: a sequence without RX.TICK is within every timeout. -/
theorem ticksBounded_map_rxFrame (limit n : Nat) (fs : List (List Byte)) :
    ticksBounded limit n (fs.map .rxFrame) = true := by
  induction fs generalizing n with
  | nil => rfl
  | cons f fs ih => exact ih 0

/-- R136: no frame of a transfer is another one's duplicate, since their indices differ. -/
theorem nodup_of_pack {cfg : Config} {m : Nat} {p : List Byte} {fs : List (List Byte)} (hw : cfg.wf = true)
    (hm : cfg.markerLen + 4 ≤ m) (h : pack cfg m p = .ok fs) : fs.Nodup := by
  obtain ⟨slices, -, hlen, -, rfl⟩ := frames_of_pack hm h
  refine List.pairwise_iff_getElem.mpr fun i j hi hj hlt heq => Nat.ne_of_lt hlt ?_
  rw [List.getElem_mapIdx, List.getElem_mapIdx] at heq
  rw [List.length_mapIdx] at hi hj
  exact index_eq_of_frameCommand_eq hw (by omega) (by omega) (congrArg Instr.rxFrame heq)

/-! ### The statements -/

/-- Settles O51, as the case of order independence (O52) in which the frames before the last arrive in order, once
each and without ticks. -/
theorem packedTransferRoundTrip : Obligations.PackedTransferRoundTrip := by
  unfold Obligations.PackedTransferRoundTrip
  intro s m p fs t hw hm hmax hpack
  obtain ⟨slices, hone, -, -, hfs⟩ := frames_of_pack hm hpack
  have hne : fs ≠ [] := List.ne_nil_of_length_pos (by rw [hfs, List.length_mapIdx]; omega)
  obtain ⟨init, last, rfl⟩ := (List.eq_nil_or_concat' fs).resolve_left hne
  have hnew : last ∉ init := fun h =>
    List.disjoint_of_nodup_append (nodup_of_pack hw hm hpack) h (List.mem_singleton_self last)
  have hbefore : ∀ i ∈ init.map Instr.rxFrame, i = .rxTick ∨ ∃ f ∈ init ++ [last], i = .rxFrame f := fun i hi => by
    obtain ⟨f, hf, rfl⟩ := List.mem_map.mp hi
    exact .inr ⟨f, List.mem_append_left _ hf, rfl⟩
  have hcover : ∀ f ∈ init ++ [last], Instr.rxFrame f ∈ init.map .rxFrame ∨ f = last := fun _ hf =>
    (List.mem_append.mp hf).imp List.mem_map_of_mem List.mem_singleton.mp
  obtain ⟨u, v, hrun, -, hexec, hv⟩ := arrivalOrderIsIrrelevant s m p _ t (init.map .rxFrame) last hw hm hmax hpack
    hbefore List.mem_concat_self hcover (by simpa using hnew) (ticksBounded_map_rxFrame _ _ _)
  refine ⟨v, ?_, hv⟩
  rw [List.map_append, ← List.cons_append, runAll_append hrun]
  exact runAll_cons hexec []

/-- Settles O50: `frames_of_pack` for the slices and the formats, `length_getElem?_of_pack` for the lengths. -/
theorem packedTransferIsWellFormed : Obligations.PackedTransferIsWellFormed := by
  unfold Obligations.PackedTransferIsWellFormed
  intro cfg m p hw hm _
  have hc : 0 < m - 2 := by omega
  have hwrapped := length_wrapped cfg p
  refine ⟨by rw [pack_eq_error_iff, lt_chunkCount_iff hc, hwrapped], fun fs hpack => ?_⟩
  have hcount := length_of_pack hpack
  obtain ⟨slices, hone, hmax, hflat, hfs⟩ := frames_of_pack hm hpack
  have hlen : slices.length = fs.length := by rw [hfs, List.length_mapIdx]
  refine ⟨hlen ▸ hone, hlen ▸ hmax, fun k f hf => ?_, slices, hlen, hflat, fun k f slice hf hslice => ?_⟩
  · rw [length_getElem?_of_pack hm hpack hf]
    refine ⟨?_, fun hk => ?_, fun hk => ?_⟩
    · rw [length_chunk]
      omega
    · rw [length_chunk_of_not_last hc (hcount ▸ hk)]
      omega
    · obtain ⟨hlast, hpos⟩ := length_chunk_of_last hc (hk.trans hcount)
      rw [← hwrapped, ← hk, Nat.add_sub_cancel, ← hlast]
      omega
  · have hframe : f = encode cfg (transferFrame fs.length k slice) := by
      rw [hfs, List.getElem?_mapIdx, hslice] at hf
      rw [← hlen]
      exact (Option.some.inj hf).symm
    rw [hframe, decodeFrame_transferFrame hw, transferFrame, apply_ite some]

end Sys2Proof.Machine
end

section
/-! Proof of the statement of 60_exceptions.md: a refused command has no effect at all (R150), whether the decoder or its
own instruction refuses it. -/

namespace Sys2Proof.Machine

/-- R49: a command that answers STATUS answers it with OK, DISCARDED or IGNORED, which are no error codes. -/
theorem statusCode_byte_lt (i : Instr) (s : State) : (statusCode i s).byte.toNat < 0x80 := by
  cases i with
  | crcInit | crcByte | fpParse | rxStart | rxAbort | rxByte | rd => exact Nat.zero_lt_succ _
  | rxFrame raw =>
    rw [statusCode]
    split
    · split <;> decide
    · decide
  | rxTick | frameF0 | frameFN =>
    rw [statusCode]
    split <;> decide

/-- R147, R150: only the two read commands answer an error code, which comes with datum 0, and they have no effect. -/
theorem data_eq_zero_and_effect_eq_of_error (i : Instr) (s : State) :
    0x80 ≤ (answer i s).code.byte.toNat → (answer i s).data = 0#32 ∧ effect i s = s := by
  have ok_not_error : ¬ 0x80 ≤ ResponseCode.ok.byte.toNat := by decide
  have status_not_error (h : (answer i s).code = statusCode i s) : ¬ 0x80 ≤ (answer i s).code.byte.toNat := by
    rw [h]
    exact (statusCode_byte_lt i s).not_ge
  cases i with
  | crcInit | crcByte | fpParse | rxStart | rxFrame | rxTick | rxAbort | frameF0 | frameFN =>
    exact fun h => absurd h (status_not_error rfl)
  | rxByte k =>
    rw [answer]
    split
    · split
      · exact fun h => absurd h ok_not_error
      · exact fun _ => ⟨rfl, rfl⟩
    · exact fun _ => ⟨rfl, rfl⟩
  | rd r =>
    rw [answer]
    split
    · exact fun h => absurd h ok_not_error
    · exact fun _ => ⟨rfl, rfl⟩

/-- Settles O32: a command that does not decode only answers, with datum 0; an instruction that answers an error code
has no effect (`data_eq_zero_and_effect_eq_of_error`). -/
theorem refusedCommandsChangeNothing : Obligations.RefusedCommandsChangeNothing := by
  unfold Obligations.RefusedCommandsChangeNothing
  intro s t bytes r hstep hr hcode
  have hw : s.cfg.wf = true := wf_of_step (s := s.present bytes) hstep
  cases hd : decode s.cfg bytes with
  | error e =>
    rw [step_present_of_error hw hd] at hstep
    obtain rfl := (onlyAnswers_next_iff s t _ _).mp hstep
    cases hr
    exact ⟨rfl, rfl⟩
  | ok i =>
    rw [step_present_of_ok hw hd] at hstep
    obtain rfl := eq_of_exec hstep
    cases hr
    obtain ⟨hdata, heffect⟩ := data_eq_zero_and_effect_eq_of_error i s hcode
    exact ⟨hdata, by rw [heffect]⟩

end Sys2Proof.Machine
end

section
/-! Proof of the statement of 70_reset_and_hazards.md: what a reset event does (R160), and the wait for a first command,
which may be any (R161). -/

namespace Sys2Proof.Machine

/-- R160: reset as an update of every element R28 names. It writes no parameter and takes nothing from the port. -/
theorem State.applyReset_eq_update (s : State) :
    s.applyReset =
      { s with crc := 0x1D0F#16, st := .off, outcome := .none, expValid := false, expTotal := 0#8, slots := [],
               timer := 0#32, tmo := 0#32, malf := false, stale := false, out := [], response := none } := rfl

/-- Settles O34: the two events by what a step does with them; the first command after reset is answered because every
command is, in every state (`everyCommandIsAnswered`). -/
theorem resetEventAndWaiting : Obligations.ResetEventAndWaiting := by
  unfold Obligations.ResetEventAndWaiting
  refine fun s hw => ⟨fun rest hp => ⟨rest, none, ?_⟩, step_of_port_nil hw, fun bytes => ?_⟩
  · rw [step_of_port_reset hw hp, State.applyReset_eq_update]
  · obtain ⟨t, r, hstep, hr, -, -⟩ := everyCommandIsAnswered (State.resetOf s.cfg) bytes hw
    exact ⟨t, r, hstep, hr⟩

end Sys2Proof.Machine
end
